-- ==== Sys2Proof/Word.lean ====
section
/-!
DEFINITION. The bit vectors the block's rules speak of (R7, R11, R12).
Bit 0 is the least significant bit of every vector (R11), which is `BitVec`'s own numbering, so `v[hi:lo]` of the
spec is `v.extractLsb' lo (hi - lo + 1)`, `u(v)` is `v.toNat`, and `{v1, v2}` is `v1 ++ v2`.
-/
namespace Sys2Proof

/-- A 32-bit port value (R8: `a` and `y`). -/
abbrev Word := BitVec 32

/-- A single-precision (binary32) bit pattern (R7, R44). -/
abbrev Single := BitVec 32

/-- A half-precision (binary16) bit pattern (R7, R43). -/
abbrev Half := BitVec 16

/-- A request word `w = {op, a}` (R37): `w[33:32] = op`, `w[31:0] = a`. -/
abbrev RequestWord := BitVec 34

end Sys2Proof
end

