-- ==== Sys2Proof/Config.lean ====
section
/-!
DEFINITION. What the implementation fixes (R9) and the free values (R10).
-/
namespace Sys2Proof

/-- What is fixed when the block is built (R9). It is not state (R19): `exec` has one argument beside the instruction,
so the machine's `State` carries it, and no step changes it (log 2). -/
structure Config where
  /-- The elaboration parameter `NAN_PRESERVE` (R9): `false` is 0, `true` is 1. -/
  nanPreserve : Bool
  deriving DecidableEq, Repr

/-- The block as built by default: `NAN_PRESERVE = 0` (R9). -/
def Config.default : Config := { nanPreserve := false }

/-- DESIGN CHOICE (log 3). `draw_16()` (R12, R82): the free half result of an out-of-contract ToHalfFast request. It has
no body, so nothing is known of any of its values. It is applied to the number of the draw and to the operand. -/
opaque Config.drawHalf : Nat → Single → Half

/-- DESIGN CHOICE (log 3). `draw_32()` (R12, R86): the free single result of an out-of-contract ToSingleFast request. It
has no body. It is applied to the number of the draw and to the operand. -/
opaque Config.drawSingle : Nat → Half → Single

end Sys2Proof
end

