-- ==== Sys2Proof/Syntax.lean ====
section
/-!
DEFINITION. The operations, the decoded request (`Instr`), and the request lines of R50.
-/
namespace Sys2Proof

/-- The four operations of the block (R2, R39), under the spec's mnemonics. -/
inductive Operation where
  | toHalf
  | toSingle
  | toHalfFast
  | toSingleFast
  deriving DecidableEq, Repr

/-- A decoded request (R37): the operation and the operand it reads (R40). `a[31:16]` of the half-input operations is
ignored, so it is no part of the instruction (log 8). -/
inductive Instr where
  /-- ToHalf of `sgl = a[31:0]` (R65). -/
  | toHalf (sgl : Single)
  /-- ToSingle of `h = a[15:0]` (R73). -/
  | toSingle (h : Half)
  /-- ToHalfFast of `sgl = a[31:0]` (R81). -/
  | toHalfFast (sgl : Single)
  /-- ToSingleFast of `h = a[15:0]` (R85). -/
  | toSingleFast (h : Half)
  deriving DecidableEq, Repr

/-- The operation of a decoded request. -/
def Instr.operation : Instr → Operation
  | .toHalf _ => .toHalf
  | .toSingle _ => .toSingle
  | .toHalfFast _ => .toHalfFast
  | .toSingleFast _ => .toSingleFast

/-- The operand of a request line (R50). -/
inductive LineOperand where
  /-- A hexadecimal constant of 8 digits, for a single input. -/
  | hex8 (sgl : Single)
  /-- A hexadecimal constant of 4 digits, for a half input, with what the program states for `a[31:16]` (0 unless the
  program states otherwise). -/
  | hex4 (upper : BitVec 16) (h : Half)
  /-- The name of an earlier result: result number `k`, counted from 0. -/
  | result (k : Nat)
  deriving DecidableEq, Repr

/-- One request line, `<result> = <mnemonic> <operand>` (R50). The result's name is the line's own number. -/
structure Line where
  operation : Operation
  operand : LineOperand
  deriving DecidableEq, Repr

end Sys2Proof
end

