-- ==== Sys2Proof/WellFormed.lean ====
section
/-!
DEFINITION. Which terms of `Syntax` the spec admits.
Every decoded request is well formed: all four operations and every operand value are legal (R48), and the widths are in
the types. The checks that can fail are those of R50 on request lines.
-/
namespace Sys2Proof

/-- Every request is legal (R48: no reserved, illegal or hint encoding; every value of `a` is a legal operand). -/
def Instr.wellFormed : Instr → Bool
  | .toHalf _ => true
  | .toSingle _ => true
  | .toHalfFast _ => true
  | .toSingleFast _ => true

/-- Does the operation take a half input (R39, R40)? -/
def Operation.halfInput : Operation → Bool
  | .toHalf => false
  | .toSingle => true
  | .toHalfFast => false
  | .toSingleFast => true

/-- R50, for a line that stands after `n` earlier lines: an 8-digit constant goes with a single input, a 4-digit constant
with a half input, and a result's name is that of an earlier line. -/
def Line.wellFormed (n : Nat) (l : Line) : Bool :=
  match l.operand with
  | .hex8 _ => !l.operation.halfInput
  | .hex4 _ _ => l.operation.halfInput
  | .result k => decide (k < n)

/-- R50, line by line: the `i`-th line of `ls` stands after `n + i` earlier ones. -/
def linesWellFormed (n : Nat) : List Line → Bool
  | [] => true
  | l :: ls => l.wellFormed n && linesWellFormed (n + 1) ls

end Sys2Proof
end

