-- ==== Sys2Proof/Decode.lean ====
section
/-!
DEFINITION. The decoder and the encoder of request words (R37, R39, R40, R49, R51).
Every 34-bit word decodes (R48). What is no 34-bit word is rejected by name (R49).
-/
namespace Sys2Proof

/-- The operation select code (R39): `op[0]` is the direction (0 single to half), `op[1]` the variant (0 precise). -/
def Operation.code : Operation → BitVec 2
  | .toHalf => 0b00#2
  | .toSingle => 0b01#2
  | .toHalfFast => 0b10#2
  | .toSingleFast => 0b11#2

/-- The operation an `op` value selects (R39); all four values select one. -/
def Operation.ofCode (op : BitVec 2) : Operation :=
  match op[1], op[0] with
  | false, false => .toHalf
  | false, true => .toSingle
  | true, false => .toHalfFast
  | true, true => .toSingleFast

/-- The request word of an `op` and an `a` (R37): `w = {op, a}`. -/
def requestWord (op : BitVec 2) (a : Word) : RequestWord := op ++ a

/-- `op = w[33:32]` (R37). -/
def opField (w : RequestWord) : BitVec 2 := w.extractLsb' 32 2

/-- `a = w[31:0]` (R37). -/
def aField (w : RequestWord) : Word := w.extractLsb' 0 32

/-- The request a word stands for (R51): total, since no encoding is reserved (R48). -/
def decode (w : RequestWord) : Instr :=
  match Operation.ofCode (opField w) with
  | .toHalf => .toHalf (aField w)
  | .toSingle => .toSingle ((aField w).extractLsb' 0 16)
  | .toHalfFast => .toHalfFast (aField w)
  | .toSingleFast => .toSingleFast ((aField w).extractLsb' 0 16)

/-- Why a number is no request. -/
inductive DecodeError where
  /-- It has a bit above bit 33: every request is the 34-bit word of R37 (R49). -/
  | notARequestWord
  deriving DecidableEq, Repr

/-- Decoding of any number: a 34-bit word decodes, anything longer is rejected by name (R49, log 8). -/
def decodeNat (w : Nat) : Except DecodeError Instr :=
  if w < 2 ^ 34 then .ok (decode (BitVec.ofNat 34 w)) else .error .notARequestWord

/-- The instruction read from a table word `w` of `nbits` bits, numbered as spec/opcode_table.json numbers them (bit 0
least significant); every bit at or above `nbits` is 0 (log 8). -/
def decodeTableWord (nbits w : Nat) : Option Instr :=
  match decodeNat (w % 2 ^ nbits) with
  | .ok i => some i
  | .error _ => none

/-- `a` of a request (R40): a single operand fills it, a half operand stands in `a[15:0]`; the ignored `a[31:16]` is
written 0 (log 8). -/
def Instr.operandWord : Instr → Word
  | .toHalf sgl => sgl
  | .toSingle h => 0#16 ++ h
  | .toHalfFast sgl => sgl
  | .toSingleFast h => 0#16 ++ h

/-- The request word of an instruction (R37, R39, R40). -/
def encode (i : Instr) : RequestWord := requestWord i.operation.code i.operandWord

/-- `mask` of every row of spec/opcode_table.json (R51). -/
def tableMask : RequestWord := 0x300000000#34

/-- `match` of an operation's row of spec/opcode_table.json (R51). -/
def Operation.tableMatch : Operation → RequestWord
  | .toHalf => 0x000000000#34
  | .toSingle => 0x100000000#34
  | .toHalfFast => 0x200000000#34
  | .toSingleFast => 0x300000000#34

end Sys2Proof
end

