-- ==== Sys2Proof/Machine/State.lean ====
section
/-!
DEFINITION. The machine's state, the stops, and the state after power-up.
The block holds no state (R15 to R21, R25). `State` is its ports (R22, R38), the elaboration parameter (R9) and the
model's own draw counter (log 1, 2, 3).
-/
namespace Sys2Proof.Machine

/-- The level on one input wire (R109). -/
inductive Level where
  /-- Logic 0. -/
  | low
  /-- Logic 1. -/
  | high
  /-- Undriven or unknown. -/
  | undefined
  deriving DecidableEq, Repr

/-- An input port of `n` wires: the level on each, wire 0 first. -/
abbrev Port (n : Nat) := Vector Level n

/-- The block as its ports show it. -/
structure State where
  /-- Operation select `op[1:0]`, driven by the environment (R22, R38). -/
  op : Port 2
  /-- Operand `a[31:0]`, driven by the environment (R22, R38). -/
  a : Port 32
  /-- Result `y[31:0]`, driven by the block (R22, R38): its settled value, or `none` while it has not settled since the
  inputs were last driven, when it has no value in the model (R105, log 7). -/
  y : Option Word
  /-- The elaboration parameter (R9, R19): constant, no step changes it (log 2). -/
  config : Config
  /-- The model's own: how many draws have been taken, so that each request takes its own (R29, log 3). -/
  draws : Nat
  deriving DecidableEq, Repr

/-- Reasons to stop with a fault. There are none: "there is no fault" (R90), and a broken fast contract is no exception
(R91). Safe: the spec says that every request with defined levels has a result. -/
inductive Fault
  deriving DecidableEq, Repr

/-- Reasons to refuse a request. -/
inductive Refusal where
  /-- An instruction whose meaning is not written: raised by an arm of `exec` that is rejected by name. No arm is. Safe. -/
  | notModelled (mnemonic : String)
  /-- Raised by `step` alone: an undefined level on a bit of `op`, or on a bit of `a` that the selected operation reads
  (R109: "a model refuses it"). Safe: the hardware goes on with an output the spec does not specify. -/
  | undefinedInputLevel
  /-- Raised by `sampleY` alone: an observation of `y` before it has settled (R105; 93_implementation_defined.md: refuse
  any observation before settling). Safe: hardware shows transient values that are no request's result. -/
  | unsettledOutput
  deriving DecidableEq, Repr

/-- Right after power is stable, with `NAN_PRESERVE` at its default (R9). DESIGN CHOICE (log 4): the environment's
levels on `op` and `a` are low, since the spec gives none; `y` is then the settled result of that request, ToHalf of
+0.0 (R23, R103). DESIGN CHOICE (log 3): no draw has been taken. -/
def State.reset : State where
  op := Vector.replicate 2 .low
  a := Vector.replicate 32 .low
  y := some 0x00000000#32
  config := Config.default
  draws := 0

end Sys2Proof.Machine
end

