-- ==== Sys2Proof/Machine/Formats.lean ====
section
/-!
DEFINITION. The two data formats: field accessors and composers (R43, R44, R45) and input classes (R46).
-/
namespace Sys2Proof.Machine

/-- `sgnS(sgl) = sgl[31]` (R45). -/
def sgnS (sgl : Single) : BitVec 1 := sgl.extractLsb' 31 1
/-- `expS(sgl) = sgl[30:23]` (R45). -/
def expS (sgl : Single) : BitVec 8 := sgl.extractLsb' 23 8
/-- `manS(sgl) = sgl[22:0]` (R45). -/
def manS (sgl : Single) : BitVec 23 := sgl.extractLsb' 0 23
/-- `sgnH(h) = h[15]` (R45). -/
def sgnH (h : Half) : BitVec 1 := h.extractLsb' 15 1
/-- `expH(h) = h[14:10]` (R45). -/
def expH (h : Half) : BitVec 5 := h.extractLsb' 10 5
/-- `manH(h) = h[9:0]` (R45). -/
def manH (h : Half) : BitVec 10 := h.extractLsb' 0 10

/-- `packS(s, e8, m23) = {s, e8, m23}` (R45). -/
def packS (s : BitVec 1) (e8 : BitVec 8) (m23 : BitVec 23) : Single := s ++ e8 ++ m23
/-- `packH(s, e5, m10) = {s, e5, m10}` (R45). -/
def packH (s : BitVec 1) (e5 : BitVec 5) (m10 : BitVec 10) : Half := s ++ e5 ++ m10

/-- The class of an input pattern (R46). The special class is the infinities and the NaNs. -/
inductive FpClass where
  | zero
  | denormal
  | infinity
  | nan
  | normal
  deriving DecidableEq, Repr

/-- Special: infinity or NaN (R46). -/
def FpClass.special : FpClass → Bool
  | .infinity | .nan => true
  | .zero | .denormal | .normal => false

/-- The class of a single pattern (R46). -/
def classS (sgl : Single) : FpClass :=
  if expS sgl = 0#8 then (if manS sgl = 0#23 then .zero else .denormal)
  else if expS sgl = 255#8 then (if manS sgl = 0#23 then .infinity else .nan)
  else .normal

/-- The class of a half pattern (R46). -/
def classH (h : Half) : FpClass :=
  if expH h = 0#5 then (if manH h = 0#10 then .zero else .denormal)
  else if expH h = 31#5 then (if manH h = 0#10 then .infinity else .nan)
  else .normal

end Sys2Proof.Machine
end

