-- ==== Sys2Proof/Machine/Units.lean ====
section
/-!
DEFINITION. The datapath units of spec/40_datapath_units.md: sign_zero_handler, exponent_rebias, mantissa_trunc_extend.
-/
namespace Sys2Proof.Machine

/-- `clamp(k, lo, hi)` on integers (R12). -/
def clamp (k lo hi : Int) : Int := if k < lo then lo else if hi < k then hi else k

/-- `isZeroS(sgl) = (sgl[30:0] == 31'b0)` (R53). -/
def isZeroS (sgl : Single) : Bool := sgl.extractLsb' 0 31 == 0#31
/-- `isZeroH(h) = (h[14:0] == 15'b0)` (R54). -/
def isZeroH (h : Half) : Bool := h.extractLsb' 0 15 == 0#15
/-- `zeroH(s) = {s, 15'b0}` (R55). -/
def zeroH (s : BitVec 1) : Half := s ++ 0#15
/-- `zeroS(s) = {s, 31'b0}` (R55). -/
def zeroS (s : BitVec 1) : Single := s ++ 0#31

/-- `rebiasS2H(e8)` (R56): the exact integer `u(e8) - 127 + 15`, clamped to `[0, 31]`, in 5 bits. -/
def rebiasS2H (e8 : BitVec 8) : BitVec 5 := BitVec.ofInt 5 (clamp ((e8.toNat : Int) - 127 + 15) 0 31)
/-- `rebiasH2S(e5)` (R57): the exact integer `u(e5) - 15 + 127`, always in range, in 8 bits. -/
def rebiasH2S (e5 : BitVec 5) : BitVec 8 := BitVec.ofInt 8 ((e5.toNat : Int) - 15 + 127)

/-- Half exponent minimum (R58). -/
def expMinH : BitVec 5 := 0#5
/-- Half exponent maximum (R58). -/
def expMaxH : BitVec 5 := 31#5
/-- Single exponent minimum (R58). -/
def expMinS : BitVec 8 := 0#8
/-- Single exponent maximum (R58). -/
def expMaxS : BitVec 8 := 255#8

/-- `truncM(m23) = m23[22:13]` (R59): no rounding, no sticky bit. -/
def truncM (m23 : BitVec 23) : BitVec 10 := m23.extractLsb' 13 10
/-- `extendM(m10) = {m10, 13'b0}` (R60). -/
def extendM (m10 : BitVec 10) : BitVec 23 := m10 ++ 0#13

/-- `nanFixM(m23, m10)` (R63), with the elaboration parameter as its first argument (R9). -/
def nanFixM (nanPreserve : Bool) (m23 : BitVec 23) (m10 : BitVec 10) : BitVec 10 :=
  if nanPreserve = true ∧ m23 ≠ 0#23 ∧ m10 = 0#10 then 1#10 else m10

end Sys2Proof.Machine
end

