-- ==== Sys2Proof/Machine/Operands.lean ====
section
/-!
DEFINITION. Operand forms: reading defined levels from the input ports (R109), assembling the operand (R40) and the
result (R41). The block has no flag of any kind (R17), so there is no flag computation.
-/
namespace Sys2Proof.Machine

/-- The bit a level stands for; an undefined level stands for none (R109). -/
def Level.bit? : Level → Option Bool
  | .low => some false
  | .high => some true
  | .undefined => none

/-- The level that stands for a bit. -/
def Level.ofBit : Bool → Level
  | false => .low
  | true => .high

/-- The port that carries the bits of `v`: wire `i` has the level of `v[i]` (R26: identity wiring). -/
def Port.drive {n : Nat} (v : BitVec n) : Port n :=
  ⟨((List.range n).map fun i => Level.ofBit (v.getLsbD i)).toArray, by simp⟩

/-- The value on wires `k-1 … 0` of a port, if every one of them has a defined level (R109). -/
def Port.readLow {n : Nat} (p : Port n) : (k : Nat) → Option (BitVec k)
  | 0 => some 0#0
  | k + 1 =>
    match p.toList[k]?.bind Level.bit?, p.readLow k with
    | some b, some v => some (BitVec.cons b v)
    | _, _ => none

/-- `y` of a half result (R41): `{16'b0, r16}`. -/
def halfResult (r16 : Half) : Word := 0#16 ++ r16

/-- `y` of a single result (R41): `r32`. -/
def singleResult (r32 : Single) : Word := r32

end Sys2Proof.Machine
end

