-- ==== Sys2Proof/Machine/Ops.lean ====
section
/-!
DEFINITION. The named operations on the state: driving the inputs, presenting a request, taking the request from the
ports, driving the result, sampling it, counting a draw. There is no memory (R25), no register file (R15), no exception
to take and none to return from (R90, R94, R95), so there are no operations for them.
-/
namespace Sys2Proof.Machine

/-- The environment drives levels on `op` and `a` (R22, R38). From then on `y` has not settled, and has no value until the
block has evaluated the request (R105, log 7). -/
def State.driveInputs (s : State) (op : Port 2) (a : Port 32) : State := { s with op := op, a := a, y := none }

/-- The environment presents a request: it drives the defined levels of its bits (R37, R38). -/
def State.present (s : State) (w : RequestWord) : State :=
  s.driveInputs (Port.drive (opField w)) (Port.drive (aField w))

/-- `y <- v` (R12): `y` settles at `v`. -/
def State.driveY (s : State) (v : Word) : State := { s with y := some v }

/-- The requester samples `y` (R50, R105): its settled value, and a refusal before it has settled. -/
def sampleY (s : State) : Host.Outcome Word Fault Refusal :=
  match s.y with
  | some v => .next v
  | none => .refused .unsettledOutput

/-- One draw has been taken (R10, R29; the model's own counter, log 3). -/
def State.countDraw (s : State) : State := { s with draws := s.draws + 1 }

/-- The request word on the ports, if every wire that the selected operation reads has a defined level (R109): all of `a`
for a single input (op[0] = 0), `a[15:0]` for a half input (op[0] = 1, R39, R40). The ignored `a[31:16]` of a half input
is not read and stands as 0 in the word (log 5). -/
def fetchWord (s : State) : Option RequestWord :=
  match s.op.readLow 2 with
  | none => none
  | some op =>
    if op[0] then (s.a.readLow 16).map fun h => requestWord op (0#16 ++ h)
    else (s.a.readLow 32).map fun sgl => requestWord op sgl

/-- The request on the ports, decoded. -/
def fetch (s : State) : Option Instr := (fetchWord s).map decode

/-- A request with a half result completes: `y <- {16'b0, r16}` and nothing else changes (R41, R29). -/
def answerHalf (r16 : Half) (s : State) : Host.Outcome State Fault Refusal := .next (s.driveY (halfResult r16))

/-- A request with a single result completes: `y <- r32` and nothing else changes (R41, R29). -/
def answerSingle (r32 : Single) (s : State) : Host.Outcome State Fault Refusal := .next (s.driveY (singleResult r32))

end Sys2Proof.Machine
end

