-- ==== Sys2Proof/Machine/Fast.lean ====
section
/-!
DEFINITION. ToHalfFast and ToSingleFast (spec/43_fast.md). In contract they give a value (R81, R85). Out of contract the
result is a draw, never a fault (R82, R86, R89).
-/
namespace Sys2Proof.Machine

/-- The contract domain of ToHalfFast (R81): ±0, or `1 <= u(e8) <= 254`. -/
def inContractS (sgl : Single) : Bool :=
  isZeroS sgl || (decide (1 ≤ (expS sgl).toNat) && decide ((expS sgl).toNat ≤ 254))

/-- The contract domain of ToSingleFast (R85): ±0, or `1 <= u(e5) <= 30`. -/
def inContractH (h : Half) : Bool :=
  isZeroH h || (decide (1 ≤ (expH h).toNat) && decide ((expH h).toNat ≤ 30))

/-- ToHalfFast on its contract domain (R81): the zero check, then step 5 with its clamp. -/
def toHalfFast (sgl : Single) : Half :=
  if isZeroS sgl then zeroH (sgnS sgl) else packH (sgnS sgl) (rebiasS2H (expS sgl)) (truncM (manS sgl))

/-- ToSingleFast on its contract domain (R85): the zero check, then step 5. -/
def toSingleFast (h : Half) : Single :=
  if isZeroH h then zeroS (sgnH h) else packS (sgnH h) (rebiasH2S (expH h)) (extendM (manH h))

/-- ToHalfFast: R81 in contract, a draw of 16 bits out of contract (R82). -/
def execToHalfFast (sgl : Single) (s : State) : Host.Outcome State Fault Refusal :=
  if inContractS sgl then answerHalf (toHalfFast sgl) s
  else answerHalf (Config.drawHalf s.draws sgl) s.countDraw

/-- ToSingleFast: R85 in contract, a draw of 32 bits out of contract (R86). -/
def execToSingleFast (h : Half) (s : State) : Host.Outcome State Fault Refusal :=
  if inContractH h then answerSingle (toSingleFast h) s
  else answerSingle (Config.drawSingle s.draws h) s.countDraw

/-- The datapath R83 recommends to an implementer: the zero check and step 5 on EVERY input. No meaning uses it: "a model
must still use rule R82". -/
def recommendedToHalfFast (sgl : Single) : Half := toHalfFast sgl

/-- The datapath R87 recommends to an implementer: the zero check and step 5 on EVERY input. No meaning uses it: "a model
must still use rule R86". -/
def recommendedToSingleFast (h : Half) : Single := toSingleFast h

end Sys2Proof.Machine
end

