-- ==== Sys2Proof/Machine/ToHalf.lean ====
section
/-!
DEFINITION. ToHalf, single to half, precise (spec/41_to_half.md).
-/
namespace Sys2Proof.Machine

/-- The special-case mux tree of ToHalf (R65): the first true condition wins. -/
def toHalf (nanPreserve : Bool) (sgl : Single) : Half :=
  if isZeroS sgl then zeroH (sgnS sgl)                                                                -- R66
  else if expS sgl = expMinS then packH (sgnS sgl) expMinH (truncM (manS sgl))                        -- R67
  else if expS sgl = expMaxS then
    packH (sgnS sgl) expMaxH (nanFixM nanPreserve (manS sgl) (truncM (manS sgl)))                     -- R68
  else packH (sgnS sgl) (rebiasS2H (expS sgl)) (truncM (manS sgl))                                    -- R69

/-- ToHalf (R65): total, no flag, no exception. -/
def execToHalf (sgl : Single) (s : State) : Host.Outcome State Fault Refusal :=
  answerHalf (toHalf s.config.nanPreserve sgl) s

end Sys2Proof.Machine
end

