-- ==== Sys2Proof/Machine/ToSingle.lean ====
section
/-!
DEFINITION. ToSingle, half to single, precise (spec/42_to_single.md).
-/
namespace Sys2Proof.Machine

/-- The special-case mux tree of ToSingle (R73): the first true condition wins. -/
def toSingle (h : Half) : Single :=
  if isZeroH h then zeroS (sgnH h)                                                   -- R74
  else if expH h = expMinH then packS (sgnH h) expMinS (extendM (manH h))            -- R75
  else if expH h = expMaxH then packS (sgnH h) expMaxS (extendM (manH h))            -- R76
  else packS (sgnH h) (rebiasH2S (expH h)) (extendM (manH h))                        -- R77

/-- ToSingle (R73): total, no flag, no exception; `NAN_PRESERVE` has no effect. -/
def execToSingle (h : Half) (s : State) : Host.Outcome State Fault Refusal :=
  answerSingle (toSingle h) s

end Sys2Proof.Machine
end

