-- ==== Sys2Proof/Machine/Dispatch.lean ====
section
/-!
DEFINITION. One arm per operation (R39).
-/
namespace Sys2Proof.Machine

def exec (i : Instr) (s : State) : Host.Outcome State Fault Refusal :=
  match i with
  | .toHalf sgl => Sys2Proof.Machine.execToHalf sgl s
  | .toSingle h => Sys2Proof.Machine.execToSingle h s
  | .toHalfFast sgl => Sys2Proof.Machine.execToHalfFast sgl s
  | .toSingleFast h => Sys2Proof.Machine.execToSingleFast h s

end Sys2Proof.Machine
end

