-- ==== Sys2Proof/Machine/Step.lean ====
section
/-!
DEFINITION. One step is one request evaluated to its settled result (R29, R105).
-/
namespace Sys2Proof.Machine

/-- Evaluate the request on the ports. A request with an undefined level on a wire it reads is refused (R109). -/
def step (s : State) : Host.Outcome State Fault Refusal :=
  match fetch s with
  | none => .refused .undefinedInputLevel
  | some i => exec i s

/-- `s` with the request word `w` (its bits at or above `nbits` zero) presented at the ports, where `step` reads its next
request (log 6): the environment drives `op` and `a`, so that `y` has not settled (R105), and nothing else changes.
DESIGN CHOICE (log 8): there are 34 input wires, so of a number with a bit at 34 or above, below `nbits`, only the low 34
bits are driven. The spec knows no such number (R37, R49), and the decoder rejects it (`decodeNat`, `decodeTableWord`). -/
def State.withFetchWord (s : State) (nbits w : Nat) : State := s.present (BitVec.ofNat 34 (w % 2 ^ nbits))

end Sys2Proof.Machine
end

