-- ==== Sys2Proof/Machine/Caller.lean ====
section
/-!
DEFINITION. The caller's side, as the spec records it: half equality, inequality and default (R6), and the request lines
a host runs on the block (R50). Nothing of it is an operation of the block, and no meaning uses it (log 9).
-/
namespace Sys2Proof.Machine

/-- `HEq(h1, h2)` (R6): bit-pattern equality. -/
def halfEq (h1 h2 : Half) : Bool := h1 == h2
/-- `HNe(h1, h2)` (R6). -/
def halfNe (h1 h2 : Half) : Bool := !halfEq h1 h2
/-- `HDefault` (R6): pattern 0, +0. -/
def halfDefault : Half := 0x0000#16

/-- What a line puts on `a`, given the results so far, the first line's first (R50): a constant, or an earlier result,
whose low 16 bits are the operand when the operation takes a half input. -/
def lineOperandWord (l : Line) (results : List Word) : Option Word :=
  match l.operand with
  | .hex8 sgl => some sgl
  | .hex4 upper h => some (upper ++ h)
  | .result k =>
    match results[k]? with
    | none => none
    | some y => some (if l.operation.halfInput then 0#16 ++ y.extractLsb' 0 16 else y)

/-- The request word of a line (R37, R50); none where the line names a result that does not exist. -/
def lineRequestWord (l : Line) (results : List Word) : Option RequestWord :=
  (lineOperandWord l results).map (requestWord l.operation.code)

/-- The lines in order (R50): each line's request is presented after the result of the line before has been sampled.
Answers the results, the first line's first, and the state left; none where a line names a result that does not exist,
a request does not complete, or its result cannot be sampled. -/
def runLines : List Line → List Word → State → Option (List Word × State)
  | [], results, s => some (results, s)
  | l :: ls, results, s =>
    match lineRequestWord l results with
    | none => none
    | some w =>
      match step (s.present w) with
      | .next t =>
        match sampleY t with
        | .next y => runLines ls (results ++ [y]) t
        | .fault _ => none
        | .refused _ => none
      | .fault _ => none
      | .refused _ => none

end Sys2Proof.Machine
end

