-- ==== Sys2Proof/Machine/Value.lean ====
section
/-!
DEFINITION. The number a finite pattern stands for (R47). Informative in the spec: no meaning uses it. PRESUMED (log 10):
R47 marks the formulas as general knowledge, not the source's.
-/
namespace Sys2Proof.Machine

/-- `(-1)^s` (R47). -/
def signValue (s : BitVec 1) : ℚ := (-1) ^ s.toNat

/-- The value of a single pattern (R47); an infinity or a NaN stands for no number. -/
def valueS (sgl : Single) : Option ℚ :=
  match classS sgl with
  | .zero => some 0
  | .denormal => some (signValue (sgnS sgl) * 2 ^ (1 - 127 : ℤ) * ((manS sgl).toNat / 2 ^ 23))
  | .normal => some (signValue (sgnS sgl) * 2 ^ ((expS sgl).toNat - 127 : ℤ) * (1 + (manS sgl).toNat / 2 ^ 23))
  | .infinity => none
  | .nan => none

/-- The value of a half pattern (R47); an infinity or a NaN stands for no number. -/
def valueH (h : Half) : Option ℚ :=
  match classH h with
  | .zero => some 0
  | .denormal => some (signValue (sgnH h) * 2 ^ (1 - 15 : ℤ) * ((manH h).toNat / 2 ^ 10))
  | .normal => some (signValue (sgnH h) * 2 ^ ((expH h).toNat - 15 : ℤ) * (1 + (manH h).toNat / 2 ^ 10))
  | .infinity => none
  | .nan => none

end Sys2Proof.Machine
end

