-- ==== Sys2Proof/Safety.lean ====
section
/-!
DEFINITION. What claims about runs are stated in: the results the spec allows a request, a settled block, a request whose
result may be relied on, and a sequence of requests.
-/
namespace Sys2Proof.Machine

/-- The half results that the class table of the precise single-to-half conversion allows (R66 to R69), field by field:
the sign is the input's (R52), and exponent and mantissa are as the input's class says. -/
def AllowedHalf (config : Config) (sgl : Single) (r : Half) : Prop :=
  sgnH r = sgnS sgl ∧
  match classS sgl with
  | .zero => (expH r).toNat = 0 ∧ (manH r).toNat = 0
  | .denormal => (expH r).toNat = 0 ∧ (manH r).toNat = (manS sgl).toNat / 2 ^ 13
  | .infinity => (expH r).toNat = 31 ∧ (manH r).toNat = 0
  | .nan => (expH r).toNat = 31 ∧
      (manH r).toNat = if config.nanPreserve ∧ (manS sgl).toNat < 2 ^ 13 then 1 else (manS sgl).toNat / 2 ^ 13
  | .normal => (manH r).toNat = (manS sgl).toNat / 2 ^ 13 ∧
      (expH r).toNat = if (expS sgl).toNat ≤ 112 then 0
        else if (expS sgl).toNat ≤ 142 then (expS sgl).toNat - 112 else 31

/-- The single results that the class table of the precise half-to-single conversion allows (R74 to R77), field by field. -/
def AllowedSingle (h : Half) (r : Single) : Prop :=
  sgnS r = sgnH h ∧ (manS r).toNat = (manH h).toNat * 2 ^ 13 ∧
  match classH h with
  | .zero => (expS r).toNat = 0
  | .denormal => (expS r).toNat = 0
  | .infinity => (expS r).toNat = 255
  | .nan => (expS r).toNat = 255
  | .normal => (expS r).toNat = (expH h).toNat + 112

/-- The values of `y` the spec allows for a request: the class table of its direction, `y[31:16] = 0` for a half result
(R41), and any draw where a fast request is out of contract (R82, R86). -/
def Allowed (config : Config) : Instr → Word → Prop
  | .toHalf sgl, y => y.toNat < 2 ^ 16 ∧ AllowedHalf config sgl (y.extractLsb' 0 16)
  | .toSingle h, y => AllowedSingle h y
  | .toHalfFast sgl, y => y.toNat < 2 ^ 16 ∧
      (classS sgl = .zero ∨ classS sgl = .normal → AllowedHalf config sgl (y.extractLsb' 0 16))
  | .toSingleFast h, y => classH h = .zero ∨ classH h = .normal → AllowedSingle h y

/-- The block is settled (R23, R103): the wires that are read carry a request, and `y` has a value that the spec allows for
it. -/
def Settled (s : State) : Prop := ∃ i y, fetch s = some i ∧ s.y = some y ∧ Allowed s.config i y

/-- No stale output (R105): where `y` has a value, it is a result of the request on the ports now. -/
def NoStaleOutput (s : State) : Prop := s.y ≠ none → Settled s

/-- A request whose result may be relied on (R107): a precise one, or a fast one with an in-contract operand. -/
def Reliable : Instr → Prop
  | .toHalf _ => True
  | .toSingle _ => True
  | .toHalfFast sgl => inContractS sgl = true
  | .toSingleFast h => inContractH h = true

/-- The outcome of presenting request words one after another, each evaluated before the next is presented. -/
def presentAll : List RequestWord → State → Host.Outcome State Fault Refusal
  | [], s => .next s
  | w :: ws, s =>
    match step (s.present w) with
    | .next t => presentAll ws t
    | .fault r => .fault r
    | .refused r => .refused r

/-- A safe run of requests: every one of them completes. -/
def SafeRun (ws : List RequestWord) (s : State) : Prop := ∃ t, presentAll ws s = .next t

end Sys2Proof.Machine
end

