-- ==== Sys2Proof/Certificates/Slice0/Obligations.lean ====
section
/-!
DEFINITION. The statements about the block, from the numbered rules of spec/. A field is written as the slice of bits the
rule gives (R11, R43, R44); a next state is written out, so that what the record does not change is the frame: `op`, `a`,
`config` and `draws` stay as they are.
-/

open Sys2Proof Sys2Proof.Machine

/-! ## Encoding -/

/-- R51: the request word's decoding by `w[33:32]`, and the table's match and mask of the same four rows. -/
def Obligations.RequestWordDecodesByOp : Prop :=
  ∀ w : RequestWord,
    (w.extractLsb' 32 2 = 0b00#2 → decode w = .toHalf (w.extractLsb' 0 32)) ∧
    (w.extractLsb' 32 2 = 0b01#2 → decode w = .toSingle (w.extractLsb' 0 16)) ∧
    (w.extractLsb' 32 2 = 0b10#2 → decode w = .toHalfFast (w.extractLsb' 0 32)) ∧
    (w.extractLsb' 32 2 = 0b11#2 → decode w = .toSingleFast (w.extractLsb' 0 16)) ∧
    (w &&& 0x300000000#34 = 0x000000000#34 ↔ w.extractLsb' 32 2 = 0b00#2) ∧
    (w &&& 0x300000000#34 = 0x100000000#34 ↔ w.extractLsb' 32 2 = 0b01#2) ∧
    (w &&& 0x300000000#34 = 0x200000000#34 ↔ w.extractLsb' 32 2 = 0b10#2) ∧
    (w &&& 0x300000000#34 = 0x300000000#34 ↔ w.extractLsb' 32 2 = 0b11#2)

/-- Decoding gives back every encoded instruction, and encoding gives back every word less the bits that are ignored
(R37, R39, R40). That the ignored bits are encoded as 0 is the model's choice (log 8). -/
def Obligations.DecodeAndEncodeAgree : Prop :=
  (∀ i : Instr, i.wellFormed = true → decode (encode i) = i) ∧
  ∀ w : RequestWord, encode (decode w) = if w[32] then w &&& 0x30000FFFF#34 else w

/-- Request words of the spec's own programs P1, P2, P4 (spec/95_test_vectors.md) and one with ignored bits set. -/
def Obligations.ProgramListingWordsDecode : Prop :=
  decode 0x03F800000#34 = .toHalf 0x3F800000#32 ∧ decode 0x10000C100#34 = .toSingle 0xC100#16 ∧
  decode 0x23F802000#34 = .toHalfFast 0x3F802000#32 ∧ decode 0x300003C01#34 = .toSingleFast 0x3C01#16 ∧
  decode 0x1DEAD3C00#34 = .toSingle 0x3C00#16

/-- R45: the composers undo the accessors and the accessors undo the composers, for both formats; and a pattern's fields
are the bits R43 and R44 give. -/
def Obligations.FieldsComposeBack : Prop :=
  (∀ sgl : Single, packS (sgnS sgl) (expS sgl) (manS sgl) = sgl) ∧
  (∀ h : Half, packH (sgnH h) (expH h) (manH h) = h) ∧
  (∀ (s : BitVec 1) (e : BitVec 8) (m : BitVec 23), (packS s e m).extractLsb' 31 1 = s ∧
    (packS s e m).extractLsb' 23 8 = e ∧ (packS s e m).extractLsb' 0 23 = m) ∧
  ∀ (s : BitVec 1) (e : BitVec 5) (m : BitVec 10), (packH s e m).extractLsb' 15 1 = s ∧
    (packH s e m).extractLsb' 10 5 = e ∧ (packH s e m).extractLsb' 0 10 = m

/-! ## A step -/

/-- A step evaluates the request on the ports (R35, R37): a presented word as it decodes, and, wire by wire, whatever
request the wires that are read carry, with any value on the ignored `a[31:16]` of a half input (R40). -/
def Obligations.StepRunsTheDecodedRequest : Prop :=
  (∀ (s : State) (w : RequestWord), step (s.present w) = exec (decode w) (s.present w)) ∧
  (∀ (s : State) (op : BitVec 2) (sgl : Single), s.op.readLow 2 = some op → op[0] = false →
    s.a.readLow 32 = some sgl → step s = exec (decode (op ++ sgl)) s) ∧
  (∀ (s : State) (op : BitVec 2) (upper : BitVec 16) (h : Half), s.op.readLow 2 = some op → op[0] = true →
    s.a.readLow 16 = some h → step s = exec (decode (op ++ (upper ++ h))) s)

/-- R109, on the wires (levels: log 5): a step refuses exactly when `op` has an undefined level, or a bit of `a` that the
selected operation reads has one (all of `a` where `op[0]` is 0, `a[15:0]` where it is 1); otherwise it completes (R90);
and a level on `a[31:16]` is harmless where `op[0]` is 1. That the last clause gives ToSingleFast out of contract the same
draw under other levels on `a[31:16]` is the model's choice (log 3: a draw is applied to the counter and the operand), no
law of R86. -/
def Obligations.UndefinedLevelsAreRefused : Prop :=
  (∀ s : State,
    (step s = .refused .undefinedInputLevel ↔
      s.op[0] = .undefined ∨ s.op[1] = .undefined ∨
      (s.op[0] = .low ∧ ∃ j : Fin 32, s.a[j] = .undefined) ∨
      (s.op[0] = .high ∧ ∃ j : Fin 32, j.val < 16 ∧ s.a[j] = .undefined)) ∧
    (step s ≠ .refused .undefinedInputLevel → ∃ t, step s = .next t)) ∧
  ∀ (s t : State) (a : Port 32), s.op[0] = .high → (∀ j : Fin 32, j.val < 16 → a[j] = s.a[j]) →
    step s = .next t → step (s.driveInputs s.op a) = .next { t with a := a }

/-- Every request completes, whatever the operand and the state (R29, R90, R91); it settles `y` and writes no input
port and not the elaboration parameter (R19, R21). The draw counter is the model's own (log 3): it moves where a draw is taken. -/
def Obligations.EveryRequestCompletes : Prop :=
  ∀ (i : Instr) (s : State), ∃ t y, exec i s = .next t ∧ t.y = some y ∧
    t.op = s.op ∧ t.a = s.a ∧ t.config = s.config ∧ (Reliable i → t.draws = s.draws) ∧ (¬ Reliable i → t.draws = s.draws + 1) ∧
    ((i.operation = .toHalf ∨ i.operation = .toHalfFast) → y.extractLsb' 16 16 = 0#16)

/-! ## ToHalf -/

/-- R66. -/
def Obligations.ToHalfZeroPath : Prop :=
  ∀ (sgl : Single) (s : State),
    (isZeroS sgl = true ↔ sgl = 0x00000000#32 ∨ sgl = 0x80000000#32) ∧
    (isZeroS sgl = true → exec (.toHalf sgl) s = .next { s with y := some (0#16 ++ zeroH (sgl.extractLsb' 31 1)) }) ∧
    exec (.toHalf 0x00000000#32) s = .next { s with y := some 0x00000000#32 } ∧
    exec (.toHalf 0x80000000#32) s = .next { s with y := some 0x00008000#32 }

/-- R67: a single denormal gives exponent 0 and the truncated mantissa, a signed zero where `m23 < 2^13`; the result's
value (by R47, PRESUMED: log 10) is not the input's. -/
def Obligations.ToHalfExponentMinimumPath : Prop :=
  ∀ (sgl : Single) (s : State), sgl.extractLsb' 23 8 = 0#8 → sgl.extractLsb' 0 23 ≠ 0#23 →
    let r16 : Half := sgl.extractLsb' 31 1 ++ 0#5 ++ sgl.extractLsb' 13 10
    classS sgl = .denormal ∧
    exec (.toHalf sgl) s = .next { s with y := some (0#16 ++ r16) } ∧
    ((sgl.extractLsb' 0 23).toNat < 2 ^ 13 → r16 = zeroH (sgl.extractLsb' 31 1)) ∧
    ∃ v r : ℚ, valueS sgl = some v ∧ valueH r16 = some r ∧ r ≠ v

/-- R68: the special path, with each row of the rule's table for both values of `NAN_PRESERVE`. -/
def Obligations.ToHalfSpecialPath : Prop :=
  ∀ (sgl : Single) (s : State), sgl.extractLsb' 23 8 = 255#8 →
    let sign := sgl.extractLsb' 31 1
    let m23 := sgl.extractLsb' 0 23
    let m10 := sgl.extractLsb' 13 10
    exec (.toHalf sgl) s =
      .next { s with y := some (0#16 ++ (sign ++ 31#5 ++ nanFixM s.config.nanPreserve m23 m10)) } ∧
    (m23 = 0#23 → exec (.toHalf sgl) s =
      .next { s with y := some (if sign = 0#1 then 0x00007C00#32 else 0x0000FC00#32) }) ∧
    (m10 ≠ 0#10 → exec (.toHalf sgl) s = .next { s with y := some (0#16 ++ (sign ++ 31#5 ++ m10)) } ∧
      classH (sign ++ 31#5 ++ m10) = .nan) ∧
    (m23 ≠ 0#23 → m10 = 0#10 → s.config.nanPreserve = false → exec (.toHalf sgl) s =
      .next { s with y := some (if sign = 0#1 then 0x00007C00#32 else 0x0000FC00#32) }) ∧
    (m23 ≠ 0#23 → m10 = 0#10 → s.config.nanPreserve = true → exec (.toHalf sgl) s =
      .next { s with y := some (if sign = 0#1 then 0x00007C01#32 else 0x0000FC01#32) })

/-- R69: the normal path by exponent range. Where the result is a half normal its value (by R47, PRESUMED: log 10) is the
input's truncated toward zero: same sign, magnitude not above the input's and less than one unit in the last place below it. -/
def Obligations.ToHalfNormalPath : Prop :=
  ∀ (sgl : Single) (s : State),
    let sign := sgl.extractLsb' 31 1
    let e := (sgl.extractLsb' 23 8).toNat
    let m10 := sgl.extractLsb' 13 10
    (1 ≤ e → e ≤ 254 → exec (.toHalf sgl) s =
      .next { s with y := some (0#16 ++ (sign ++ rebiasS2H (sgl.extractLsb' 23 8) ++ m10)) }) ∧
    (1 ≤ e → e ≤ 112 → exec (.toHalf sgl) s = .next { s with y := some (0#16 ++ (sign ++ 0#5 ++ m10)) } ∧
      (classH (sign ++ 0#5 ++ m10) = .zero ∨ classH (sign ++ 0#5 ++ m10) = .denormal)) ∧
    (113 ≤ e → e ≤ 142 →
      let r16 : Half := sign ++ BitVec.ofNat 5 (e - 112) ++ m10
      exec (.toHalf sgl) s = .next { s with y := some (0#16 ++ r16) } ∧ classH r16 = .normal ∧
      ∃ v r : ℚ, valueS sgl = some v ∧ valueH r16 = some r ∧ 0 < r * v ∧ |r| ≤ |v| ∧
        |v| < |r| + 2 ^ (e - 127 - 10 : ℤ)) ∧
    (143 ≤ e → e ≤ 254 → exec (.toHalf sgl) s = .next { s with y := some (0#16 ++ (sign ++ 31#5 ++ m10)) } ∧
      classH (sign ++ 31#5 ++ m10) = if m10 = 0#10 then .infinity else .nan)

/-- R71: the mux tree of ToHalf is the closed form on every input, but for the NaNs whose truncated mantissa is 0 under
`NAN_PRESERVE = 1`, whose mantissa field is 1. -/
def Obligations.ToHalfIsItsClosedForm : Prop :=
  ∀ (sgl : Single) (s : State),
    let collapsing := sgl.extractLsb' 23 8 = 255#8 ∧ sgl.extractLsb' 0 23 ≠ 0#23 ∧ sgl.extractLsb' 13 10 = 0#10
    (s.config.nanPreserve = false ∨ ¬ collapsing → exec (.toHalf sgl) s =
      .next { s with y := some (0#16 ++
        (sgl.extractLsb' 31 1 ++ rebiasS2H (sgl.extractLsb' 23 8) ++ sgl.extractLsb' 13 10)) }) ∧
    (s.config.nanPreserve = true → collapsing → exec (.toHalf sgl) s =
      .next { s with y := some (0#16 ++ (sgl.extractLsb' 31 1 ++ rebiasS2H (sgl.extractLsb' 23 8) ++ 1#10)) })

/-! ## ToSingle -/

/-- R74. -/
def Obligations.ToSingleZeroPath : Prop :=
  ∀ (h : Half) (s : State),
    (isZeroH h = true ↔ h = 0x0000#16 ∨ h = 0x8000#16) ∧
    (isZeroH h = true → exec (.toSingle h) s = .next { s with y := some (zeroS (h.extractLsb' 15 1)) }) ∧
    exec (.toSingle 0x0000#16) s = .next { s with y := some 0x00000000#32 } ∧
    exec (.toSingle 0x8000#16) s = .next { s with y := some 0x80000000#32 }

/-- R75: a half denormal gives a single denormal pattern, whose value (by R47, PRESUMED: log 10) is not the input's. -/
def Obligations.ToSingleExponentMinimumPath : Prop :=
  ∀ (h : Half) (s : State), h.extractLsb' 10 5 = 0#5 → h.extractLsb' 0 10 ≠ 0#10 →
    let r32 : Single := h.extractLsb' 15 1 ++ 0#8 ++ (h.extractLsb' 0 10 ++ 0#13)
    exec (.toSingle h) s = .next { s with y := some r32 } ∧ classS r32 = .denormal ∧
    ∃ v r : ℚ, valueH h = some v ∧ valueS r32 = some r ∧ r ≠ v

/-- R76: infinities stay infinities; a NaN stays a NaN with its sign and the widened mantissa. -/
def Obligations.ToSingleSpecialPath : Prop :=
  ∀ (h : Half) (s : State), h.extractLsb' 10 5 = 31#5 →
    let r32 : Single := h.extractLsb' 15 1 ++ 255#8 ++ (h.extractLsb' 0 10 ++ 0#13)
    exec (.toSingle h) s = .next { s with y := some r32 } ∧
    (h.extractLsb' 0 10 = 0#10 → exec (.toSingle h) s =
      .next { s with y := some (if h.extractLsb' 15 1 = 0#1 then 0x7F800000#32 else 0xFF800000#32) }) ∧
    (h.extractLsb' 0 10 ≠ 0#10 → classS r32 = .nan)

/-- R77: a half normal gives the single pattern of the same value (by R47, PRESUMED: log 10), exponent field
`u(e5) + 112`. -/
def Obligations.ToSingleNormalPathIsExact : Prop :=
  ∀ (h : Half) (s : State), 1 ≤ (h.extractLsb' 10 5).toNat → (h.extractLsb' 10 5).toNat ≤ 30 →
    let r32 : Single := h.extractLsb' 15 1 ++ rebiasH2S (h.extractLsb' 10 5) ++ (h.extractLsb' 0 10 ++ 0#13)
    exec (.toSingle h) s = .next { s with y := some r32 } ∧
    (rebiasH2S (h.extractLsb' 10 5)).toNat = (h.extractLsb' 10 5).toNat + 112 ∧
    113 ≤ (rebiasH2S (h.extractLsb' 10 5)).toNat ∧ (rebiasH2S (h.extractLsb' 10 5)).toNat ≤ 142 ∧
    ∃ v : ℚ, valueH h = some v ∧ valueS r32 = some v

/-- R79: the closed form of ToSingle, for any `a[31:16]`, and where the rebias formula alone would differ from it. -/
def Obligations.ToSingleIsItsClosedForm : Prop :=
  (∀ (s : State) (upper : BitVec 16) (h : Half),
    let e8 : BitVec 8 := if h.extractLsb' 10 5 = 0#5 then 0#8
      else if h.extractLsb' 10 5 = 31#5 then 255#8 else rebiasH2S (h.extractLsb' 10 5)
    let w : RequestWord := 0b01#2 ++ (upper ++ h)
    step (s.present w) =
      .next { s.present w with y := some (h.extractLsb' 15 1 ++ e8 ++ h.extractLsb' 0 10 ++ 0#13) } ∧
    exec (.toSingle h) s = .next { s with y := some (h.extractLsb' 15 1 ++ e8 ++ h.extractLsb' 0 10 ++ 0#13) }) ∧
  rebiasH2S 0#5 = 112#8 ∧ rebiasH2S 31#5 = 143#8

/-- The paths of the two mux trees are the classes of their inputs (R46), and testing the exponent minimum before the zero
gives the same result (R70, R78). -/
def Obligations.MuxTreePathsAreTheInputClasses : Prop :=
  (∀ (sgl : Single) (s : State),
    let zero := sgl.extractLsb' 0 31 = 0#31
    let eMin := sgl.extractLsb' 23 8 = 0#8
    let eMax := sgl.extractLsb' 23 8 = 255#8
    let sign := sgl.extractLsb' 31 1
    let m10 := sgl.extractLsb' 13 10
    (zero ↔ classS sgl = .zero) ∧ (¬ zero ∧ eMin ↔ classS sgl = .denormal) ∧
    (¬ zero ∧ ¬ eMin ∧ eMax ↔ (classS sgl).special = true) ∧ (¬ zero ∧ ¬ eMin ∧ ¬ eMax ↔ classS sgl = .normal) ∧
    exec (.toHalf sgl) s = .next { s with y := some (0#16 ++
      (if eMin then sign ++ 0#5 ++ m10 else if zero then sign ++ 0#15
       else if eMax then sign ++ 31#5 ++ nanFixM s.config.nanPreserve (sgl.extractLsb' 0 23) m10
       else sign ++ rebiasS2H (sgl.extractLsb' 23 8) ++ m10 : Half)) }) ∧
  ∀ (h : Half) (s : State),
    let zero := h.extractLsb' 0 15 = 0#15
    let eMin := h.extractLsb' 10 5 = 0#5
    let eMax := h.extractLsb' 10 5 = 31#5
    let sign := h.extractLsb' 15 1
    let m23 : BitVec 23 := h.extractLsb' 0 10 ++ 0#13
    (zero ↔ classH h = .zero) ∧ (¬ zero ∧ eMin ↔ classH h = .denormal) ∧
    (¬ zero ∧ ¬ eMin ∧ eMax ↔ (classH h).special = true) ∧ (¬ zero ∧ ¬ eMin ∧ ¬ eMax ↔ classH h = .normal) ∧
    exec (.toSingle h) s = .next { s with y := some (
      (if eMin then sign ++ 0#8 ++ m23 else if zero then sign ++ 0#31
       else if eMax then sign ++ 255#8 ++ m23 else sign ++ rebiasH2S (h.extractLsb' 10 5) ++ m23 : Single)) }

/-- R80, as two steps of the machine: ToSingle of `h`, then ToHalf of the `y` it settled, gives `h` back, for every `h`,
either value of `NAN_PRESERVE`, and anything on the ignored `a[31:16]`. -/
def Obligations.HalfToSingleToHalfIsIdentity : Prop :=
  ∀ (s : State) (upper : BitVec 16) (h : Half), ∃ t y u,
    step (s.present (0b01#2 ++ (upper ++ h))) = .next t ∧ t.y = some y ∧
    step (t.present (0b00#2 ++ y)) = .next u ∧ u.y = some (0#16 ++ h)

/-! ## The fast operations -/

/-- R81: ToHalfFast on its contract domain, as a presented request (operand, encoding) and as an instruction. It answers
what ToHalf answers there: R81 says so of a normal single outside half's range, and R84 derives it for the whole domain. -/
def Obligations.ToHalfFastInContract : Prop :=
  ∀ (sgl : Single) (s : State),
    (sgl.extractLsb' 0 31 = 0#31 ∨
      1 ≤ (sgl.extractLsb' 23 8).toNat ∧ (sgl.extractLsb' 23 8).toNat ≤ 254) →
    let r16 : Half := if sgl.extractLsb' 0 31 = 0#31 then sgl.extractLsb' 31 1 ++ 0#15
      else sgl.extractLsb' 31 1 ++ rebiasS2H (sgl.extractLsb' 23 8) ++ sgl.extractLsb' 13 10
    let w : RequestWord := 0b10#2 ++ sgl
    w &&& 0x300000000#34 = 0x200000000#34 ∧
    step (s.present w) = .next { s.present w with y := some (0#16 ++ r16) } ∧
    exec (.toHalfFast sgl) s = .next { s with y := some (0#16 ++ r16) } ∧
    exec (.toHalfFast sgl) s = exec (.toHalf sgl) s

/-- R82: ToHalfFast out of contract completes with a draw in `y[15:0]`, 0 above it, and changes nothing else. Nothing is
known of the draw (`Config.drawHalf` has no body). That a draw is counted is the model's own (log 3). -/
def Obligations.ToHalfFastOutOfContract : Prop :=
  ∀ (sgl : Single) (s : State),
    (sgl.extractLsb' 23 8 = 0#8 ∧ sgl.extractLsb' 0 23 ≠ 0#23 ∨ sgl.extractLsb' 23 8 = 255#8) →
    exec (.toHalfFast sgl) s =
      .next { s with y := some (0#16 ++ Config.drawHalf s.draws sgl), draws := s.draws + 1 }

/-- R83: the datapath recommended to implementers equals ToHalf of a block built with `NAN_PRESERVE = 0` on every input,
and what it gives out of contract. The model's ToHalfFast does not use it. -/
def Obligations.RecommendedToHalfFastIsToHalf : Prop :=
  ∀ (sgl : Single) (s : State),
    recommendedToHalfFast sgl = (if isZeroS sgl then zeroH (sgl.extractLsb' 31 1)
      else packH (sgl.extractLsb' 31 1) (rebiasS2H (sgl.extractLsb' 23 8)) (sgl.extractLsb' 13 10)) ∧
    (s.config.nanPreserve = false → exec (.toHalf sgl) s =
      .next { s with y := some (0#16 ++ recommendedToHalfFast sgl) }) ∧
    (sgl.extractLsb' 23 8 = 0#8 → sgl.extractLsb' 0 23 ≠ 0#23 →
      recommendedToHalfFast sgl = sgl.extractLsb' 31 1 ++ 0#5 ++ sgl.extractLsb' 13 10) ∧
    (sgl.extractLsb' 23 8 = 255#8 →
      recommendedToHalfFast sgl = sgl.extractLsb' 31 1 ++ 31#5 ++ sgl.extractLsb' 13 10)

/-- R84: on its contract domain ToHalfFast does what ToHalf does, whatever `NAN_PRESERVE` is. -/
def Obligations.ToHalfFastAgreesWithToHalf : Prop :=
  ∀ (sgl : Single) (s : State), inContractS sgl = true →
    (exec (.toHalfFast sgl) s = exec (.toHalf sgl) s) ∧
    exec (.toHalfFast sgl) s = .next { s with y := some (0#16 ++ toHalf s.config.nanPreserve sgl) }

/-- R85: ToSingleFast on its contract domain, as a presented request with anything on `a[31:16]`, and as an instruction. -/
def Obligations.ToSingleFastInContract : Prop :=
  ∀ (upper : BitVec 16) (h : Half) (s : State),
    (h.extractLsb' 0 15 = 0#15 ∨ 1 ≤ (h.extractLsb' 10 5).toNat ∧ (h.extractLsb' 10 5).toNat ≤ 30) →
    let r32 : Single := if h.extractLsb' 0 15 = 0#15 then h.extractLsb' 15 1 ++ 0#31
      else h.extractLsb' 15 1 ++ rebiasH2S (h.extractLsb' 10 5) ++ (h.extractLsb' 0 10 ++ 0#13)
    let w : RequestWord := 0b11#2 ++ (upper ++ h)
    w &&& 0x300000000#34 = 0x300000000#34 ∧
    step (s.present w) = .next { s.present w with y := some r32 } ∧
    exec (.toSingleFast h) s = .next { s with y := some r32 } ∧
    exec (.toSingleFast h) s = exec (.toSingle h) s

/-- R86: ToSingleFast out of contract completes with a draw on the whole of `y` and changes nothing else. Nothing is known
of the draw (`Config.drawSingle` has no body). That a draw is counted is the model's own (log 3). -/
def Obligations.ToSingleFastOutOfContract : Prop :=
  ∀ (h : Half) (s : State),
    (h.extractLsb' 10 5 = 0#5 ∧ h.extractLsb' 0 10 ≠ 0#10 ∨ h.extractLsb' 10 5 = 31#5) →
    exec (.toSingleFast h) s = .next { s with y := some (Config.drawSingle s.draws h), draws := s.draws + 1 }

/-- R87: the datapath recommended to implementers, its exponent fields 112 and 143 out of contract, and the finite normal
values (by R47, PRESUMED: log 10) they stand for. The model's ToSingleFast does not use it. -/
def Obligations.RecommendedToSingleFastOutOfContract : Prop :=
  ∀ h : Half,
    let m10 := h.extractLsb' 0 10
    let r32 := recommendedToSingleFast h
    r32 = (if isZeroH h then zeroS (h.extractLsb' 15 1)
      else packS (h.extractLsb' 15 1) (rebiasH2S (h.extractLsb' 10 5)) (m10 ++ 0#13)) ∧
    (h.extractLsb' 10 5 = 0#5 → m10 ≠ 0#10 → r32.extractLsb' 23 8 = 112#8 ∧ classS r32 = .normal ∧
      valueS r32 = some ((-1 : ℚ) ^ (h.extractLsb' 15 1).toNat * 2 ^ (-15 : ℤ) * (1 + m10.toNat / 2 ^ 10))) ∧
    (h.extractLsb' 10 5 = 31#5 → r32.extractLsb' 23 8 = 143#8 ∧ classS r32 = .normal ∧
      ∃ r : ℚ, valueS r32 = some r ∧ 2 ^ 16 ≤ |r|)

/-- R88: ToSingleFast agrees with ToSingle in contract, and the fast round trip of a single inside half's normal exponent
range gives what the precise round trip gives, the input with its low 13 bits cleared, as steps of the machine. -/
def Obligations.FastRoundTripIsThePreciseOne : Prop :=
  (∀ (h : Half) (s : State), inContractH h = true → exec (.toSingleFast h) s = exec (.toSingle h) s) ∧
  ∀ (sgl : Single) (s : State),
    113 ≤ (sgl.extractLsb' 23 8).toNat → (sgl.extractLsb' 23 8).toNat ≤ 142 → ∃ t yt u v yv x,
      step (s.present (0b10#2 ++ sgl)) = .next t ∧ t.y = some yt ∧ inContractH (yt.extractLsb' 0 16) = true ∧
      step (t.present (0b11#2 ++ yt)) = .next u ∧
      step (s.present (0b00#2 ++ sgl)) = .next v ∧ v.y = some yv ∧ step (v.present (0b01#2 ++ yv)) = .next x ∧
      u.y = x.y ∧ u.y = some (sgl.extractLsb' 13 19 ++ 0#13)

/-! ## Datapath units -/

/-- R53, R54, R55: the zero detectors are true of the two zero patterns of their format and of no denormal, infinity or
NaN; and the signed-zero results. -/
def Obligations.ZeroDetectorsAndZeroResults : Prop :=
  (∀ sgl : Single, (isZeroS sgl = true ↔ sgl.extractLsb' 0 31 = 0#31) ∧
    (isZeroS sgl = true ↔ sgl = 0x00000000#32 ∨ sgl = 0x80000000#32) ∧
    (classS sgl = .denormal ∨ classS sgl = .infinity ∨ classS sgl = .nan → isZeroS sgl = false)) ∧
  (∀ h : Half, (isZeroH h = true ↔ h.extractLsb' 0 15 = 0#15) ∧
    (isZeroH h = true ↔ h = 0x0000#16 ∨ h = 0x8000#16)) ∧
  zeroH 0#1 = 0x0000#16 ∧ zeroH 1#1 = 0x8000#16 ∧ zeroS 0#1 = 0x00000000#32 ∧ zeroS 1#1 = 0x80000000#32

/-- R59, R60, R61: truncation, widening, and which undoes which. -/
def Obligations.TruncationAndWidening : Prop :=
  (∀ m23 : BitVec 23, truncM m23 = m23.extractLsb' 13 10 ∧ (truncM m23).toNat = m23.toNat / 2 ^ 13 ∧
    extendM (truncM m23) = m23.extractLsb' 13 10 ++ 0#13 ∧
    (extendM (truncM m23) = m23 ↔ m23.extractLsb' 0 13 = 0#13)) ∧
  ∀ m10 : BitVec 10, extendM m10 = m10 ++ 0#13 ∧ (extendM m10).toNat = m10.toNat * 2 ^ 13 ∧
    truncM (extendM m10) = m10

/-- R52: the sign of the input is the sign of the result of every operation on every path, but for the draws. -/
def Obligations.SignIsCopied : Prop :=
  ∀ (s : State),
    (∀ sgl : Single,
      ∃ t y, exec (.toHalf sgl) s = .next t ∧ t.y = some y ∧ y.extractLsb' 15 1 = sgl.extractLsb' 31 1) ∧
    (∀ h : Half,
      ∃ t y, exec (.toSingle h) s = .next t ∧ t.y = some y ∧ y.extractLsb' 31 1 = h.extractLsb' 15 1) ∧
    (∀ sgl : Single, inContractS sgl = true →
      ∃ t y, exec (.toHalfFast sgl) s = .next t ∧ t.y = some y ∧ y.extractLsb' 15 1 = sgl.extractLsb' 31 1) ∧
    (∀ h : Half, inContractH h = true →
      ∃ t y, exec (.toSingleFast h) s = .next t ∧ t.y = some y ∧ y.extractLsb' 31 1 = h.extractLsb' 15 1)

/-- R62: where the rebias of a normal input saturates, to 0 or to 31, the result keeps the truncated mantissa, in ToHalf
and, by R81 (step 5, clamp included), in ToHalfFast; saturated high it is the infinity pattern where the truncated
mantissa is 0 and a NaN pattern otherwise. -/
def Obligations.SaturationKeepsTheMantissa : Prop :=
  ∀ (sgl : Single) (s : State) (i : Instr), i = .toHalf sgl ∨ i = .toHalfFast sgl →
    let e := (sgl.extractLsb' 23 8).toNat
    (1 ≤ e → e ≤ 112 → ∃ t y, exec i s = .next t ∧ t.y = some y ∧ y.extractLsb' 10 5 = 0#5 ∧
      y.extractLsb' 0 10 = sgl.extractLsb' 13 10) ∧
    (143 ≤ e → e ≤ 254 → ∃ t y, exec i s = .next t ∧ t.y = some y ∧ y.extractLsb' 10 5 = 31#5 ∧
      y.extractLsb' 0 10 = sgl.extractLsb' 13 10 ∧
      classH (y.extractLsb' 0 16) = if sgl.extractLsb' 13 10 = 0#10 then .infinity else .nan)

/-- R64: the denormal collapse. A nonzero single whose result has exponent field 0 becomes a half zero or denormal pattern
of another value (by R47, PRESUMED: log 10), and so does a half denormal in the other direction. -/
def Obligations.DenormalsCollapse : Prop :=
  (∀ (sgl : Single) (s : State), sgl.extractLsb' 0 31 ≠ 0#31 → (sgl.extractLsb' 23 8).toNat ≤ 112 →
    let r16 : Half := sgl.extractLsb' 31 1 ++ 0#5 ++ sgl.extractLsb' 13 10
    exec (.toHalf sgl) s = .next { s with y := some (0#16 ++ r16) } ∧
    (classH r16 = .zero ∨ classH r16 = .denormal) ∧
    (sgl.extractLsb' 13 10 = 0#10 → r16 = zeroH (sgl.extractLsb' 31 1)) ∧
    ∃ v r : ℚ, valueS sgl = some v ∧ valueH r16 = some r ∧ r ≠ v) ∧
  ∀ (h : Half) (s : State), h.extractLsb' 10 5 = 0#5 → h.extractLsb' 0 10 ≠ 0#10 →
    let r32 : Single := h.extractLsb' 15 1 ++ 0#8 ++ (h.extractLsb' 0 10 ++ 0#13)
    exec (.toSingle h) s = .next { s with y := some r32 } ∧ classS r32 = .denormal ∧
    ∃ v r : ℚ, valueH h = some v ∧ valueS r32 = some r ∧ r ≠ v

/-! ## The machine -/

/-- Every step leaves the block settled (R23, R103): `y` has a value, and it is a result that the class tables of the spec
allow for the request on the ports, which the step has not changed. `Settled` is kept whatever the state before held. -/
def Obligations.EveryStepSettlesTheOutput : Prop :=
  ∀ s t : State, step s = .next t → Settled t

/-- An output that can be sampled is never stale (R105, 93_implementation_defined.md; log 7). That `y` has a value only as a
result of the request on the ports now is kept by every step and by every change of the inputs, to any levels, defined or
not; after a change of the inputs a sample is refused until a step has completed, and after a step it gives the value. -/
def Obligations.SampledOutputIsNeverStale : Prop :=
  ∀ s : State, NoStaleOutput s →
    (∀ t, step s = .next t → NoStaleOutput t ∧ ∃ v, sampleY t = .next v) ∧
    (∀ (op : Port 2) (a : Port 32), NoStaleOutput (s.driveInputs op a) ∧
      sampleY (s.driveInputs op a) = .refused .unsettledOutput ∧
      ∀ t, step (s.driveInputs op a) = .next t → ∃ i v, fetch (s.driveInputs op a) = some i ∧
        sampleY t = .next v ∧ Allowed s.config i v)

/-- The block is settled right after power (R103). The levels on the inputs there are the model's choice (log 4). -/
def Obligations.PowerUpStateIsSettled : Prop :=
  Settled State.reset ∧ step State.reset = .next State.reset

/-- The frame of every step: the input ports and the elaboration parameter are as before (R19, R21), and the model's draw
counter (log 3) never goes back and moves by at most one. -/
def Obligations.EveryStepKeepsInputsAndParameter : Prop :=
  ∀ s t : State, step s = .next t → t.op = s.op ∧ t.a = s.a ∧ t.config = s.config ∧
    (t.draws = s.draws ∨ t.draws = s.draws + 1)

/-- The result of a reliable request depends only on the request and `NAN_PRESERVE` (R21): two states that agree on the
wires that are read and on the parameter, and on nothing else, settle the same `y`. -/
def Obligations.ResultDependsOnlyOnRequestAndParameter : Prop :=
  ∀ (s t : State) (i : Instr), fetch s = some i → fetch t = some i → s.config = t.config → Reliable i →
    ∃ u v y, step s = .next u ∧ step t = .next v ∧ u.y = some y ∧ v.y = some y

/-- Requests are idempotent (R29): evaluating a reliable request again on the state it left changes nothing. -/
def Obligations.ReliableRequestsAreIdempotent : Prop :=
  ∀ (s : State) (i : Instr), fetch s = some i → Reliable i → ∃ t, step s = .next t ∧ step t = .next t

/-- No history (R21, R106): any sequence of requests, reliable or not, completes, and a reliable request after it settles
the `y` it would have settled before it. -/
def Obligations.EarlierRequestsHaveNoEffect : Prop :=
  ∀ (ws : List RequestWord) (w : RequestWord) (s : State), SafeRun ws s ∧
    (Reliable (decode w) → ∃ t u v y, presentAll ws s = .next t ∧ step (t.present w) = .next u ∧
      step (s.present w) = .next v ∧ u.y = some y ∧ v.y = some y)

/-- The precise round trip of a single inside half's normal exponent range loses less than 2^-10 of its value (by R47,
PRESUMED: log 10), toward zero, and keeps its sign (W15 of spec/95_test_vectors.md), as two steps of the machine. -/
def Obligations.PreciseRoundTripRelativeError : Prop :=
  ∀ (sgl : Single) (s : State), 113 ≤ (sgl.extractLsb' 23 8).toNat → (sgl.extractLsb' 23 8).toNat ≤ 142 →
    ∃ (t u : State) (yt yu : Word) (x r : ℚ),
      step (s.present (0b00#2 ++ sgl)) = .next t ∧ t.y = some yt ∧
      step (t.present (0b01#2 ++ yt)) = .next u ∧ u.y = some yu ∧
      yu.extractLsb' 31 1 = sgl.extractLsb' 31 1 ∧
      valueS sgl = some x ∧ valueS yu = some r ∧ |r| ≤ |x| ∧ |x - r| < 2 ^ (-10 : ℤ) * |x|

/-- Well-formed request lines (R50) all complete. Each line's result is the `y` that is sampled after a step on the line's
own request word, presented to the state that the lines before it leave, with their results to name; the results stand in
the order of the lines, after the earlier ones. How results are numbered is the model's choice (log 9). -/
def Obligations.WellFormedLinesComplete : Prop :=
  ∀ (ls : List Line) (results : List Word) (s : State), linesWellFormed results.length ls = true →
    ∃ rs t, runLines ls results s = some (results ++ rs, t) ∧ rs.length = ls.length ∧ t.config = s.config ∧
      ∀ (k : Nat) (l : Line) (r : Word), ls[k]? = some l → rs[k]? = some r → ∃ sk w tk,
        runLines (ls.take k) results s = some (results ++ rs.take k, sk) ∧
        lineRequestWord l (results ++ rs.take k) = some w ∧ step (sk.present w) = .next tk ∧ sampleY tk = .next r
end

