-- ==== Sys2Proof/Laws/Formats.lean ====
section
/-!
SUPPORT. The numeric value of every field and every composed pattern, and that accessors and composers undo each other
(R45). Equality of patterns is then equality of numbers, for `omega`.
-/
namespace Sys2Proof

/-- A concatenation as a number (R12). -/
theorem append_toNat {n m : Nat} (x : BitVec n) (y : BitVec m) : (x ++ y).toNat = x.toNat * 2 ^ m + y.toNat := by
  rw [BitVec.toNat_append, ← Nat.shiftLeft_add_eq_or_of_lt y.isLt, Nat.shiftLeft_eq]

/-- A slice as a number (R11). -/
theorem slice_toNat {n : Nat} (x : BitVec n) (lo len : Nat) :
    (x.extractLsb' lo len).toNat = x.toNat / 2 ^ lo % 2 ^ len := by
  rw [BitVec.extractLsb'_toNat, Nat.shiftRight_eq_div_pow]

theorem requestWord_toNat (op : BitVec 2) (a : Word) : (requestWord op a).toNat = op.toNat * 2 ^ 32 + a.toNat :=
  append_toNat op a

theorem opField_toNat (w : RequestWord) : (opField w).toNat = w.toNat / 2 ^ 32 := by
  have := w.isLt
  rw [opField, slice_toNat]
  omega

theorem aField_toNat (w : RequestWord) : (aField w).toNat = w.toNat % 2 ^ 32 := by
  rw [aField, slice_toNat]
  omega

@[simp] theorem requestWord_fields (w : RequestWord) : requestWord (opField w) (aField w) = w := by
  apply BitVec.eq_of_toNat_eq
  rw [requestWord_toNat, opField_toNat, aField_toNat]
  omega

@[simp] theorem opField_requestWord (op : BitVec 2) (a : Word) : opField (requestWord op a) = op := by
  apply BitVec.eq_of_toNat_eq
  have := a.isLt
  rw [opField_toNat, requestWord_toNat]
  omega

@[simp] theorem aField_requestWord (op : BitVec 2) (a : Word) : aField (requestWord op a) = a := by
  apply BitVec.eq_of_toNat_eq
  have := a.isLt
  rw [aField_toNat, requestWord_toNat]
  omega

namespace Machine

theorem sgnS_toNat (sgl : Single) : (sgnS sgl).toNat = sgl.toNat / 2 ^ 31 := by
  have := sgl.isLt
  rw [sgnS, slice_toNat]; omega

theorem expS_toNat (sgl : Single) : (expS sgl).toNat = sgl.toNat / 2 ^ 23 % 2 ^ 8 := slice_toNat sgl 23 8

theorem manS_toNat (sgl : Single) : (manS sgl).toNat = sgl.toNat % 2 ^ 23 := by
  rw [manS, slice_toNat]; omega

theorem sgnH_toNat (h : Half) : (sgnH h).toNat = h.toNat / 2 ^ 15 := by
  have := h.isLt
  rw [sgnH, slice_toNat]; omega

theorem expH_toNat (h : Half) : (expH h).toNat = h.toNat / 2 ^ 10 % 2 ^ 5 := slice_toNat h 10 5

theorem manH_toNat (h : Half) : (manH h).toNat = h.toNat % 2 ^ 10 := by
  rw [manH, slice_toNat]; omega

theorem packS_toNat (s : BitVec 1) (e8 : BitVec 8) (m23 : BitVec 23) :
    (packS s e8 m23).toNat = (s.toNat * 2 ^ 8 + e8.toNat) * 2 ^ 23 + m23.toNat := by
  rw [← append_toNat s e8, ← append_toNat (s ++ e8) m23]; rfl

theorem packH_toNat (s : BitVec 1) (e5 : BitVec 5) (m10 : BitVec 10) :
    (packH s e5 m10).toNat = (s.toNat * 2 ^ 5 + e5.toNat) * 2 ^ 10 + m10.toNat := by
  rw [← append_toNat s e5, ← append_toNat (s ++ e5) m10]; rfl

@[simp] theorem sgnS_packS (s : BitVec 1) (e8 : BitVec 8) (m23 : BitVec 23) : sgnS (packS s e8 m23) = s := by
  apply BitVec.eq_of_toNat_eq
  have := e8.isLt; have := m23.isLt
  rw [sgnS_toNat, packS_toNat]; omega

@[simp] theorem expS_packS (s : BitVec 1) (e8 : BitVec 8) (m23 : BitVec 23) : expS (packS s e8 m23) = e8 := by
  apply BitVec.eq_of_toNat_eq
  have := e8.isLt; have := m23.isLt
  rw [expS_toNat, packS_toNat]; omega

@[simp] theorem manS_packS (s : BitVec 1) (e8 : BitVec 8) (m23 : BitVec 23) : manS (packS s e8 m23) = m23 := by
  apply BitVec.eq_of_toNat_eq
  have := m23.isLt
  rw [manS_toNat, packS_toNat]; omega

@[simp] theorem sgnH_packH (s : BitVec 1) (e5 : BitVec 5) (m10 : BitVec 10) : sgnH (packH s e5 m10) = s := by
  apply BitVec.eq_of_toNat_eq
  have := e5.isLt; have := m10.isLt
  rw [sgnH_toNat, packH_toNat]; omega

@[simp] theorem expH_packH (s : BitVec 1) (e5 : BitVec 5) (m10 : BitVec 10) : expH (packH s e5 m10) = e5 := by
  apply BitVec.eq_of_toNat_eq
  have := e5.isLt; have := m10.isLt
  rw [expH_toNat, packH_toNat]; omega

@[simp] theorem manH_packH (s : BitVec 1) (e5 : BitVec 5) (m10 : BitVec 10) : manH (packH s e5 m10) = m10 := by
  apply BitVec.eq_of_toNat_eq
  have := m10.isLt
  rw [manH_toNat, packH_toNat]; omega

theorem halfResult_toNat (r16 : Half) : (halfResult r16).toNat = r16.toNat := by
  have := append_toNat 0#16 r16
  simpa [halfResult] using this

@[simp] theorem extractLsb'_halfResult (r16 : Half) : (halfResult r16).extractLsb' 0 16 = r16 := by
  apply BitVec.eq_of_toNat_eq
  have := r16.isLt
  rw [slice_toNat, halfResult_toNat]; omega

@[simp] theorem extractLsb'_high_halfResult (r16 : Half) : (halfResult r16).extractLsb' 16 16 = 0#16 := by
  apply BitVec.eq_of_toNat_eq
  have := r16.isLt
  rw [slice_toNat, halfResult_toNat]; simp; omega

end Machine

end Sys2Proof
end

