-- ==== Sys2Proof/Laws/State.lean ====
section
/-!
SUPPORT. One lemma per field per update of the state, and the outcomes of the answering operations.
-/
namespace Sys2Proof.Machine

@[simp] theorem State.driveInputs_op (s : State) (op : Port 2) (a : Port 32) : (s.driveInputs op a).op = op := rfl
@[simp] theorem State.driveInputs_a (s : State) (op : Port 2) (a : Port 32) : (s.driveInputs op a).a = a := rfl
@[simp] theorem State.driveInputs_y (s : State) (op : Port 2) (a : Port 32) : (s.driveInputs op a).y = none := rfl
@[simp] theorem State.driveInputs_config (s : State) (op : Port 2) (a : Port 32) :
    (s.driveInputs op a).config = s.config := rfl
@[simp] theorem State.driveInputs_draws (s : State) (op : Port 2) (a : Port 32) :
    (s.driveInputs op a).draws = s.draws := rfl

@[simp] theorem State.present_op (s : State) (w : RequestWord) : (s.present w).op = Port.drive (opField w) := rfl
@[simp] theorem State.present_a (s : State) (w : RequestWord) : (s.present w).a = Port.drive (aField w) := rfl
@[simp] theorem State.present_y (s : State) (w : RequestWord) : (s.present w).y = none := rfl
@[simp] theorem State.present_config (s : State) (w : RequestWord) : (s.present w).config = s.config := rfl
@[simp] theorem State.present_draws (s : State) (w : RequestWord) : (s.present w).draws = s.draws := rfl

@[simp] theorem State.driveY_op (s : State) (v : Word) : (s.driveY v).op = s.op := rfl
@[simp] theorem State.driveY_a (s : State) (v : Word) : (s.driveY v).a = s.a := rfl
@[simp] theorem State.driveY_y (s : State) (v : Word) : (s.driveY v).y = some v := rfl
@[simp] theorem State.driveY_config (s : State) (v : Word) : (s.driveY v).config = s.config := rfl
@[simp] theorem State.driveY_draws (s : State) (v : Word) : (s.driveY v).draws = s.draws := rfl

@[simp] theorem State.countDraw_op (s : State) : s.countDraw.op = s.op := rfl
@[simp] theorem State.countDraw_a (s : State) : s.countDraw.a = s.a := rfl
@[simp] theorem State.countDraw_y (s : State) : s.countDraw.y = s.y := rfl
@[simp] theorem State.countDraw_config (s : State) : s.countDraw.config = s.config := rfl
@[simp] theorem State.countDraw_draws (s : State) : s.countDraw.draws = s.draws + 1 := rfl

/-- A sample succeeds exactly where `y` has settled, with its value (R105). -/
theorem sampleY_eq_next_iff (s : State) (v : Word) : sampleY s = .next v ↔ s.y = some v := by
  cases h : s.y <;> simp [sampleY, h]

/-- A sample is refused exactly where `y` has not settled (R105). -/
theorem sampleY_eq_refused_iff (s : State) : sampleY s = .refused .unsettledOutput ↔ s.y = none := by
  cases h : s.y <;> simp [sampleY, h]

@[simp] theorem sampleY_driveY (s : State) (v : Word) : sampleY (s.driveY v) = .next v := rfl

/-- Everything `answerHalf` can do. -/
theorem answerHalf_eq_next_iff (r16 : Half) (s t : State) :
    answerHalf r16 s = .next t ↔ t = s.driveY (halfResult r16) := by
  simp [answerHalf, eq_comm]

/-- Everything `answerSingle` can do. -/
theorem answerSingle_eq_next_iff (r32 : Single) (s t : State) :
    answerSingle r32 s = .next t ↔ t = s.driveY (singleResult r32) := by
  simp [answerSingle, eq_comm]

end Sys2Proof.Machine
end

