-- ==== Sys2Proof/Laws/Ports.lean ====
section
/-!
SUPPORT. What reading a port gives, and what the fetch finds on the ports.
-/
namespace Sys2Proof.Machine

theorem Port.toList_drive {n : Nat} (v : BitVec n) :
    (Port.drive v).toList = (List.range n).map fun i => Level.ofBit (v.getLsbD i) := rfl

@[simp] theorem Level.bit?_ofBit (b : Bool) : Level.bit? (Level.ofBit b) = some b := by cases b <;> rfl

@[simp] theorem Level.bit?_eq_none (l : Level) : Level.bit? l = none ↔ l = .undefined := by cases l <;> simp [Level.bit?]

/-- Reading the low `k` wires of a driven port gives the low `k` bits of what drives it (R26). -/
theorem Port.readLow_drive {n : Nat} (v : BitVec n) :
    ∀ k, k ≤ n → (Port.drive v).readLow k = some (v.setWidth k)
  | 0, _ => congrArg some ((BitVec.eq_nil _).trans (BitVec.eq_nil _).symm)
  | k + 1, h => by
    have hk : k < n := h
    simp only [Port.readLow, Port.readLow_drive v k (Nat.le_of_lt hk), Port.toList_drive]
    simp [hk, BitVec.setWidth_succ]

/-- A read of the low `k` wires fails exactly when one of them has an undefined level (R109). -/
theorem Port.readLow_eq_none_iff {n : Nat} (p : Port n) :
    ∀ k, k ≤ n → (p.readLow k = none ↔ ∃ j, j < k ∧ p.toList[j]? = some .undefined)
  | 0, _ => by simp [Port.readLow]
  | k + 1, h => by
    have ih := Port.readLow_eq_none_iff p k (Nat.le_of_succ_le h)
    have hk : k < p.toList.length := by simpa using h
    obtain ⟨l, hl⟩ : ∃ l, p.toList[k]? = some l := ⟨_, List.getElem?_eq_getElem hk⟩
    have split : (∃ j, j < k + 1 ∧ p.toList[j]? = some .undefined) ↔
        (l = .undefined ∨ ∃ j, j < k ∧ p.toList[j]? = some .undefined) := by
      constructor
      · rintro ⟨j, hj, e⟩
        rcases Nat.lt_succ_iff_lt_or_eq.mp hj with hj | rfl
        · exact .inr ⟨j, hj, e⟩
        · exact .inl (by simpa [hl] using e)
      · rintro (rfl | ⟨j, hj, e⟩)
        · exact ⟨k, Nat.lt_succ_self k, hl⟩
        · exact ⟨j, Nat.lt_succ_of_lt hj, e⟩
    rw [split, ← ih]
    simp only [Port.readLow, hl, Option.bind_some]
    cases l <;> cases p.readLow k <;> simp [Level.bit?]

/-- The low `k` bits of what the low `m` wires carry are what the low `k` wires carry. -/
theorem Port.readLow_mono {n : Nat} (p : Port n) {m k : Nat} (hkm : k ≤ m) {v : BitVec m}
    (h : p.readLow m = some v) : p.readLow k = some (v.setWidth k) := by
  induction m with
  | zero => obtain rfl : k = 0 := by omega
            exact congrArg some ((BitVec.eq_nil _).trans (BitVec.eq_nil _).symm)
  | succ m ih =>
    rcases Nat.lt_or_ge m k with hlt | hle
    · obtain rfl : k = m + 1 := by omega
      simpa using h
    · simp only [Port.readLow] at h
      split at h
      · rename_i b u hb hu
        obtain rfl := Option.some.inj h
        rw [ih hle hu]
        congr 1
        ext i hi
        simp [BitVec.getLsbD_cons, show i ≠ m by omega]
      · cases h

/-- The request on a port is fetched from the word on it. -/
theorem fetch_eq_some_iff (s : State) (i : Instr) : fetch s = some i ↔ ∃ w, fetchWord s = some w ∧ decode w = i := by
  simp [fetch]

/-- What the wires carry is fetched, for a single input. -/
theorem fetchWord_single {s : State} {op : BitVec 2} {sgl : Single} (hop : s.op.readLow 2 = some op)
    (hdir : op[0] = false) (ha : s.a.readLow 32 = some sgl) : fetchWord s = some (requestWord op sgl) := by
  simp [fetchWord, hop, hdir, ha]

/-- What the wires carry is fetched, for a half input. -/
theorem fetchWord_half {s : State} {op : BitVec 2} {h : Half} (hop : s.op.readLow 2 = some op)
    (hdir : op[0] = true) (ha : s.a.readLow 16 = some h) : fetchWord s = some (requestWord op (0#16 ++ h)) := by
  simp [fetchWord, hop, hdir, ha]

/-- Words that differ only in bits the operation ignores decode alike (R40, R51). -/
theorem decode_ignores_upper {op : BitVec 2} (hdir : op[0] = true) {a b : Word}
    (hab : a.extractLsb' 0 16 = b.extractLsb' 0 16) : decode (requestWord op a) = decode (requestWord op b) := by
  cases h1 : op[1] <;> simp [decode, Operation.ofCode, hdir, h1, hab]

/-- A presented request word is fetched as the request it decodes to. -/
theorem fetch_present (s : State) (w : RequestWord) : fetch (s.present w) = some (decode w) := by
  have hop : (s.present w).op.readLow 2 = some (opField w) := by
    simp [Port.readLow_drive _ 2 (Nat.le_refl 2)]
  cases hdir : (opField w)[0]
  · have ha : (s.present w).a.readLow 32 = some (aField w) := by
      simp [Port.readLow_drive _ 32 (Nat.le_refl 32)]
    simp [fetch, fetchWord_single hop hdir ha]
  · have ha : (s.present w).a.readLow 16 = some ((aField w).setWidth 16) := by
      simp [Port.readLow_drive (aField w) 16 (by decide)]
    rw [fetch, fetchWord_half hop hdir ha, Option.map_some]
    congr 1
    conv_rhs => rw [← requestWord_fields w]
    apply decode_ignores_upper hdir
    apply BitVec.eq_of_toNat_eq
    have happ := append_toNat 0#16 ((aField w).setWidth 16)
    rw [slice_toNat, slice_toNat, happ]
    simp

/-- The request is read from the input ports alone. -/
theorem fetch_congr {s t : State} (hop : t.op = s.op) (ha : t.a = s.a) : fetch t = fetch s := by
  simp only [fetch, fetchWord, hop, ha]

/-- Driving the inputs twice is driving them the second time. -/
@[simp] theorem State.driveInputs_driveInputs (s : State) (op op' : Port 2) (a a' : Port 32) :
    (s.driveInputs op a).driveInputs op' a' = s.driveInputs op' a' := rfl

/-- Presenting twice is presenting the second request. -/
@[simp] theorem State.present_present (s : State) (w v : RequestWord) : (s.present w).present v = s.present v := rfl

end Sys2Proof.Machine
end

