-- ==== Sys2Proof/Laws/Units.lean ====
section
/-!
SUPPORT. The numeric value of each datapath unit's result, and the class conditions as numbers.
-/
namespace Sys2Proof.Machine

/-- The zero detector by fields (R46, R53). -/
theorem isZeroS_iff (sgl : Single) : isZeroS sgl = true ↔ expS sgl = 0#8 ∧ manS sgl = 0#23 := by
  rw [isZeroS, beq_iff_eq, ← BitVec.toNat_inj, ← BitVec.toNat_inj, ← BitVec.toNat_inj, slice_toNat, expS_toNat,
    manS_toNat]
  simp only [BitVec.toNat_ofNat]
  omega

/-- The zero detector by fields (R46, R54). -/
theorem isZeroH_iff (h : Half) : isZeroH h = true ↔ expH h = 0#5 ∧ manH h = 0#10 := by
  rw [isZeroH, beq_iff_eq, ← BitVec.toNat_inj, ← BitVec.toNat_inj, ← BitVec.toNat_inj, slice_toNat, expH_toNat,
    manH_toNat]
  simp only [BitVec.toNat_ofNat]
  omega

/-- A zero result is the pattern with exponent and mantissa 0 (R55). -/
theorem zeroH_eq_packH (s : BitVec 1) : zeroH s = packH s 0#5 0#10 := by
  apply BitVec.eq_of_toNat_eq
  rw [packH_toNat, zeroH, append_toNat s 0#15]
  simp; omega

/-- A zero result is the pattern with exponent and mantissa 0 (R55). -/
theorem zeroS_eq_packS (s : BitVec 1) : zeroS s = packS s 0#8 0#23 := by
  apply BitVec.eq_of_toNat_eq
  rw [packS_toNat, zeroS, append_toNat s 0#31]
  simp; omega

/-- The truncated mantissa as a number (R59). -/
theorem truncM_toNat (m23 : BitVec 23) : (truncM m23).toNat = m23.toNat / 2 ^ 13 := by
  have := m23.isLt
  rw [truncM, slice_toNat]; omega

/-- The truncated mantissa is a slice of the pattern: `sgl[22:13]` (R59, R65). -/
theorem truncM_manS (sgl : Single) : truncM (manS sgl) = sgl.extractLsb' 13 10 := by
  apply BitVec.eq_of_toNat_eq
  rw [truncM_toNat, manS_toNat, slice_toNat]
  omega

/-- The widened mantissa as a number (R60). -/
theorem extendM_toNat (m10 : BitVec 10) : (extendM m10).toNat = m10.toNat * 2 ^ 13 := by
  rw [extendM, append_toNat m10 0#13]; simp

end Sys2Proof.Machine
end

