-- ==== Sys2Proof/Laws/Exec.lean ====
section
/-!
SUPPORT. Everything a request and a step can do, said once: provers cite these instead of unfolding `exec` and `step`.
-/
namespace Sys2Proof.Machine

theorem exec_toHalf (sgl : Single) (s : State) :
    exec (.toHalf sgl) s = .next (s.driveY (halfResult (toHalf s.config.nanPreserve sgl))) := rfl

theorem exec_toSingle (h : Half) (s : State) :
    exec (.toSingle h) s = .next (s.driveY (singleResult (toSingle h))) := rfl

theorem exec_toHalfFast_inContract {sgl : Single} (hc : inContractS sgl = true) (s : State) :
    exec (.toHalfFast sgl) s = .next (s.driveY (halfResult (toHalfFast sgl))) := by
  simp [exec, execToHalfFast, hc, answerHalf]

theorem exec_toHalfFast_outOfContract {sgl : Single} (hc : inContractS sgl = false) (s : State) :
    exec (.toHalfFast sgl) s = .next (s.countDraw.driveY (halfResult (Config.drawHalf s.draws sgl))) := by
  simp [exec, execToHalfFast, hc, answerHalf]

theorem exec_toSingleFast_inContract {h : Half} (hc : inContractH h = true) (s : State) :
    exec (.toSingleFast h) s = .next (s.driveY (singleResult (toSingleFast h))) := by
  simp [exec, execToSingleFast, hc, answerSingle]

theorem exec_toSingleFast_outOfContract {h : Half} (hc : inContractH h = false) (s : State) :
    exec (.toSingleFast h) s = .next (s.countDraw.driveY (singleResult (Config.drawSingle s.draws h))) := by
  simp [exec, execToSingleFast, hc, answerSingle]

/-- A step that answers a next state evaluated the request on the ports; it refuses exactly when there is none to read. -/
theorem step_eq (s : State) :
    step s = match fetch s with
      | none => .refused .undefinedInputLevel
      | some i => exec i s := rfl

end Sys2Proof.Machine
end

