-- ==== Sys2Proof/Laws/PerInstr.lean ====
section
/-!
SUPPORT. Families of facts about the instruction as a term, one lemma per constructor.
-/

/-- The family: an encoded instruction matches its row of spec/opcode_table.json under the row's mask (R51), and the
table's other rows do not match it. -/
def Sys2Proof.Laws.TableRow.Statement (i : Sys2Proof.Instr) : Prop :=
  ∀ o : Sys2Proof.Operation,
    (Sys2Proof.encode i &&& Sys2Proof.tableMask = o.tableMatch) ↔ o = i.operation

namespace Sys2Proof.Laws.TableRow

/-- The masked request word is the operation's code in `w[33:32]`. -/
theorem masked (op : BitVec 2) (a : Word) : requestWord op a &&& tableMask = requestWord op 0#32 := by
  have bit : ∀ (o : BitVec 2) (v : Word) (i : Nat),
      (requestWord o v).getLsbD i = if i < 32 then v.getLsbD i else o.getLsbD (i - 32) :=
    fun o v i => BitVec.getLsbD_append (x := o) (y := v) (i := i)
  have mask : tableMask = requestWord 3#2 0#32 := by decide
  have ones : ∀ i, i < 2 → (3#2).getLsbD i = true := by decide
  ext i hi
  rw [mask, BitVec.getElem_and, ← BitVec.getLsbD_eq_getElem, ← BitVec.getLsbD_eq_getElem, ← BitVec.getLsbD_eq_getElem,
    bit, bit, bit]
  split
  · simp
  · rw [ones (i - 32) (by omega), Bool.and_true]

theorem toHalf (sgl : Single) : Statement (.toHalf sgl) := by
  intro o
  rw [encode, masked, show (Instr.toHalf sgl).operation = Operation.toHalf from rfl]
  cases o <;> decide

theorem toSingle (h : Half) : Statement (.toSingle h) := by
  intro o
  rw [encode, masked, show (Instr.toSingle h).operation = Operation.toSingle from rfl]
  cases o <;> decide

theorem toHalfFast (sgl : Single) : Statement (.toHalfFast sgl) := by
  intro o
  rw [encode, masked, show (Instr.toHalfFast sgl).operation = Operation.toHalfFast from rfl]
  cases o <;> decide

theorem toSingleFast (h : Half) : Statement (.toSingleFast h) := by
  intro o
  rw [encode, masked, show (Instr.toSingleFast h).operation = Operation.toSingleFast from rfl]
  cases o <;> decide

end Sys2Proof.Laws.TableRow
end

