-- ==== Sys2Proof/Tests/Slice0.lean ====
section
/-!
SUPPORT. The model's own tests. Expected results are the spec's: the W, H, S, F, G vectors and the program listings of
spec/95_test_vectors.md (its rows are named), the match column of spec/opcode_table.json, and for each statement a witness
that its hypotheses can be met, at the ends of their ranges.
-/
namespace Sys2Proof.Tests

open Sys2Proof.Machine

/-- What a requester samples after a step. -/
def settledY : Host.Outcome State Fault Refusal → Option Word
  | .next t => t.y
  | .fault _ => none
  | .refused _ => none

/-- How many draws have been taken after a step. -/
def drawsAfter : Host.Outcome State Fault Refusal → Option Nat
  | .next t => some t.draws
  | .fault _ => none
  | .refused _ => none

/-- Was the request refused? -/
def isRefused : Host.Outcome State Fault Refusal → Bool
  | .next _ => false
  | .fault _ => false
  | .refused r => r == .undefinedInputLevel

/-- The state after reset of a block built with the given `NAN_PRESERVE`. -/
def built (nanPreserve : Bool) : State := { State.reset with config := { nanPreserve := nanPreserve } }

/-! ## Well-formedness: R50 on request lines; every instruction is well formed (R48) -/

theorem test_wellFormed_accepts : linesWellFormed 0
    [⟨.toHalf, .hex8 0x3F800000#32⟩, ⟨.toSingle, .result 0⟩, ⟨.toSingleFast, .hex4 0xDEAD#16 0x3C00#16⟩,
     ⟨.toHalfFast, .result 2⟩] = true := by decide
theorem test_wellFormed_refuses_hex8_for_half_input :
    (Line.mk .toSingle (.hex8 0x3F800000#32)).wellFormed 0 = false := by decide
theorem test_wellFormed_refuses_hex4_for_single_input :
    (Line.mk .toHalfFast (.hex4 0#16 0x3C00#16)).wellFormed 0 = false := by decide
theorem test_wellFormed_refuses_later_result : (Line.mk .toSingle (.result 1)).wellFormed 1 = false := by decide
theorem test_linesWellFormed_refuses_own_result : linesWellFormed 0 [⟨.toSingle, .result 0⟩] = false := by decide

/-! ## Decoding: words written out from R37 and R39 (P1, P2, P4, S18) -/

theorem test_decode_toHalf : decode 0x0C0200000#34 = .toHalf 0xC0200000#32 := by decide
theorem test_decode_toSingle : decode 0x10000C100#34 = .toSingle 0xC100#16 := by decide
theorem test_decode_toSingle_ignores_upper : decode 0x1DEAD3C00#34 = .toSingle 0x3C00#16 := by decide
theorem test_decode_toHalfFast : decode 0x23F802000#34 = .toHalfFast 0x3F802000#32 := by decide
theorem test_decode_toSingleFast : decode 0x300003C01#34 = .toSingleFast 0x3C01#16 := by decide
theorem test_decode_all_ones : decode 0x3FFFFFFFF#34 = .toSingleFast 0xFFFF#16 := by decide
theorem test_encode : encode (.toHalfFast 0x3F802000#32) = 0x23F802000#34 ∧
    encode (.toSingle 0xC100#16) = 0x10000C100#34 := by decide
theorem test_decodeNat_rejects_longer_words :
    decodeNat 0x400000000 = .error .notARequestWord ∧ decodeNat 0x3FFFFFFFF = .ok (.toSingleFast 0xFFFF#16) := by
  constructor <;> rfl
theorem test_decodeTableWord : decodeTableWord 40 0x100003C00 = some (.toSingle 0x3C00#16) ∧
    decodeTableWord 40 0x1000000000 = none ∧ decodeTableWord 34 0x2C0200000 = some (.toHalfFast 0xC0200000#32) := by
  decide

/-! ## The datapath units: the rows of 95_test_vectors.md section 2.1 -/

theorem test_zero_units :
    [0x00000000#32, 0x80000000#32, 0x00000001#32, 0x7F800000#32, 0xFFC00000#32].map isZeroS
      = [true, true, false, false, false] ∧
    [0x0000#16, 0x8000#16, 0x0001#16, 0x7C00#16].map isZeroH = [true, true, false, false] ∧
    zeroH 1#1 = 0x8000#16 ∧ zeroS 1#1 = 0x80000000#32 := by decide
theorem test_rebias_units :
    [0#8, 1#8, 112#8, 113#8, 127#8, 142#8, 143#8, 144#8, 226#8, 254#8, 255#8].map rebiasS2H
      = [0#5, 0#5, 0#5, 1#5, 15#5, 30#5, 31#5, 31#5, 31#5, 31#5, 31#5] ∧
    [0#5, 1#5, 15#5, 16#5, 30#5, 31#5].map rebiasH2S = [112#8, 113#8, 127#8, 128#8, 142#8, 143#8] := by decide
theorem test_mantissa_units :
    [0x49F2CA#23, 0x001FFF#23, 0x002000#23, 0x7FFFFF#23].map truncM = [0x24F#10, 0x000#10, 0x001#10, 0x3FF#10] ∧
    [0x000#10, 0x001#10, 0x100#10, 0x3FF#10].map extendM = [0x000000#23, 0x002000#23, 0x200000#23, 0x7FE000#23] ∧
    nanFixM false 0x000001#23 0x000#10 = 0x000#10 ∧ nanFixM true 0x000001#23 0x000#10 = 0x001#10 ∧
    nanFixM true 0x000000#23 0x000#10 = 0x000#10 ∧ nanFixM true 0x400000#23 0x200#10 = 0x200#10 := by decide
theorem test_classes :
    [0x80000000#32, 0x00000001#32, 0x00800000#32, 0x7F7FFFFF#32, 0xFF800000#32, 0x7F800001#32].map classS
      = [.zero, .denormal, .normal, .normal, .infinity, .nan] ∧
    [0x8000#16, 0x03FF#16, 0x0400#16, 0x7BFF#16, 0xFC00#16, 0x7C01#16].map classH
      = [.zero, .denormal, .normal, .normal, .infinity, .nan] := by decide

/-! ## ToHalf: rows H1 to H31, both builds; one step of W3 -/

theorem test_toHalf_vectors :
    [0x00000000#32, 0x80000000#32, 0x00000001#32, 0x80001FFF#32, 0x00002000#32, 0x00400000#32, 0x007FFFFF#32,
     0x00800000#32, 0x387FFFFF#32, 0x38000000#32, 0x38800000#32, 0x3F800000#32, 0xBF800000#32, 0xC0200000#32,
     0x3F802000#32, 0x3F801FFF#32, 0x3DCCCCCD#32, 0x477FE000#32, 0x477FFFFF#32, 0x47800000#32, 0x47802000#32,
     0x7149F2CA#32, 0xF149F2CA#32, 0x7F7FFFFF#32, 0x7F800000#32, 0xFF800000#32, 0x7FC00000#32, 0x7F800001#32,
     0xFF801FFF#32, 0x7F802000#32, 0xFFFFFFFF#32].map (fun a => (toHalf false a, toHalf true a))
    = [(0x0000#16, 0x0000#16), (0x8000#16, 0x8000#16), (0x0000#16, 0x0000#16), (0x8000#16, 0x8000#16),
       (0x0001#16, 0x0001#16), (0x0200#16, 0x0200#16), (0x03FF#16, 0x03FF#16), (0x0000#16, 0x0000#16),
       (0x03FF#16, 0x03FF#16), (0x0000#16, 0x0000#16), (0x0400#16, 0x0400#16), (0x3C00#16, 0x3C00#16),
       (0xBC00#16, 0xBC00#16), (0xC100#16, 0xC100#16), (0x3C01#16, 0x3C01#16), (0x3C00#16, 0x3C00#16),
       (0x2E66#16, 0x2E66#16), (0x7BFF#16, 0x7BFF#16), (0x7BFF#16, 0x7BFF#16), (0x7C00#16, 0x7C00#16),
       (0x7C01#16, 0x7C01#16), (0x7E4F#16, 0x7E4F#16), (0xFE4F#16, 0xFE4F#16), (0x7FFF#16, 0x7FFF#16),
       (0x7C00#16, 0x7C00#16), (0xFC00#16, 0xFC00#16), (0x7E00#16, 0x7E00#16), (0x7C00#16, 0x7C01#16),
       (0xFC00#16, 0xFC01#16), (0x7C01#16, 0x7C01#16), (0xFFFF#16, 0xFFFF#16)] := by decide
theorem test_step_toHalf : settledY (step (State.reset.withFetchWord 40 0x0C0200000)) = some 0x0000C100#32 ∧
    settledY (step ((built false).present 0x07F800001#34)) = some 0x00007C00#32 ∧
    settledY (step ((built true).present 0x07F800001#34)) = some 0x00007C01#32 := by decide

/-! ## ToSingle: rows S1 to S17; one step of S18 and S19 (upper bits ignored) -/

theorem test_toSingle_vectors :
    [0x0000#16, 0x8000#16, 0x0001#16, 0x83FF#16, 0x0200#16, 0x0400#16, 0x3C00#16, 0xBC00#16, 0xC100#16, 0x3C01#16,
     0x7BFF#16, 0xFBFF#16, 0x7C00#16, 0xFC00#16, 0x7C01#16, 0x7E00#16, 0xFFFF#16].map toSingle
    = [0x00000000#32, 0x80000000#32, 0x00002000#32, 0x807FE000#32, 0x00400000#32, 0x38800000#32, 0x3F800000#32,
       0xBF800000#32, 0xC0200000#32, 0x3F802000#32, 0x477FE000#32, 0xC77FE000#32, 0x7F800000#32, 0xFF800000#32,
       0x7F802000#32, 0x7FC00000#32, 0xFFFFE000#32] := by decide
theorem test_step_toSingle : settledY (step (State.reset.withFetchWord 40 0x1DEAD3C00)) = some 0x3F800000#32 ∧
    settledY (step (State.reset.present 0x1FFFF8000#34)) = some 0x80000000#32 := by decide

/-! ## The fast operations: rows F1 to F6 and G1 to G6 in contract, F7 to F9 and G7 to G11 out of contract -/

theorem test_step_toHalfFast :
    [0x200000000#34, 0x280000000#34, 0x23F800000#34, 0x2C0200000#34, 0x27149F2CA#34, 0x200800001#34].map
      (fun w => settledY (step (State.reset.present w)))
    = [some 0x00000000#32, some 0x00008000#32, some 0x00003C00#32, some 0x0000C100#32, some 0x00007E4F#32,
       some 0x00000000#32] := by decide
theorem test_step_toHalfFast_draws :
    [0x23F800000#34, 0x200400000#34, 0x27F800000#34, 0x27FC00000#34].map
      (fun w => drawsAfter (step (State.reset.present w))) = [some 0, some 1, some 1, some 1] := by decide
theorem test_step_toSingleFast :
    [0x300000000#34, 0x300008000#34, 0x300003C00#34, 0x30000C100#34, 0x300007BFF#34, 0x300000400#34].map
      (fun w => settledY (step (State.reset.present w)))
    = [some 0x00000000#32, some 0x80000000#32, some 0x3F800000#32, some 0xC0200000#32, some 0x477FE000#32,
       some 0x38800000#32] := by decide
theorem test_step_toSingleFast_draws :
    [0x300003C00#34, 0x300000001#34, 0x3000083FF#34, 0x300007C00#34, 0x30000FC00#34, 0x300007E00#34].map
      (fun w => drawsAfter (step (State.reset.present w)))
    = [some 0, some 1, some 1, some 1, some 1, some 1] := by decide
theorem test_recommended_datapaths :
    [0x00400000#32, 0x7F800000#32, 0x7FC00000#32].map recommendedToHalfFast = [0x0200#16, 0x7C00#16, 0x7E00#16] ∧
    [0x0001#16, 0x83FF#16, 0x7C00#16, 0xFC00#16, 0x7E00#16].map recommendedToSingleFast
      = [0x38002000#32, 0xB87FE000#32, 0x47800000#32, 0xC7800000#32, 0x47C00000#32] := by decide

/-! ## Sampling (R105, 93_implementation_defined.md): refused before `y` has settled, its settled value after -/

theorem test_sample_before_settling_is_refused :
    sampleY (State.reset.present 0x0C0200000#34) = .refused .unsettledOutput ∧
    sampleY (State.reset.driveInputs State.reset.op State.reset.a) = .refused .unsettledOutput ∧
    sampleY (State.reset.withFetchWord 40 0x0C0200000) = .refused .unsettledOutput := ⟨rfl, rfl, rfl⟩
theorem test_sample_after_settling : sampleY State.reset = .next 0x00000000#32 ∧
    sampleY { State.reset.present 0x0C0200000#34 with y := some 0x0000C100#32 } = .next 0x0000C100#32 := ⟨rfl, rfl⟩

/-! ## The caller's side (W18, W19; R50) -/

theorem test_half_equality : halfEq 0x7E00#16 0x7E00#16 = true ∧ halfEq 0x0000#16 0x8000#16 = false ∧
    halfNe 0x0000#16 0x8000#16 = true ∧ halfDefault = 0x0000#16 := by decide
theorem test_line_request_words :
    lineRequestWord ⟨.toSingle, .result 0⟩ [0xFFFFC100#32] = some 0x10000C100#34 ∧
    lineRequestWord ⟨.toHalf, .result 0⟩ [0x3F800000#32] = some 0x03F800000#34 ∧
    lineRequestWord ⟨.toSingleFast, .hex4 0xDEAD#16 0x3C00#16⟩ [] = some 0x3DEAD3C00#34 ∧
    lineRequestWord ⟨.toSingle, .result 1⟩ [0#32] = none := by decide

/-! ## Witnesses: the hypotheses of each statement can be met, clause by clause, at the ends of the ranges -/

/-- A state whose `op` carries 01 and whose `a` carries 0x3C00 below sixteen undefined wires. -/
def upperUndefined : State :=
  { State.reset with
    op := Port.drive 0b01#2
    a := ⟨((List.range 32).map fun i => if i < 16 then Level.ofBit ((0x3C00#16).getLsbD i) else .undefined).toArray, by simp⟩ }

/-- `State.reset` with one wire of `a` undefined and `op` as given. -/
def oneUndefined (op : BitVec 2) (j : Fin 32) : State :=
  { State.reset with
    op := Port.drive op
    a := State.reset.a.set j.val .undefined j.isLt }

theorem witness_RequestWordDecodesByOp :
    (0x0FFFFFFFF#34).extractLsb' 32 2 = 0b00#2 ∧ (0x100000000#34).extractLsb' 32 2 = 0b01#2 ∧
    (0x2FFFFFFFF#34).extractLsb' 32 2 = 0b10#2 ∧ (0x300000000#34).extractLsb' 32 2 = 0b11#2 := by decide

theorem witness_DecodeAndEncodeAgree : (Instr.toSingle 0xFFFF#16).wellFormed = true ∧
    (Instr.toHalfFast 0xFFFFFFFF#32).wellFormed = true ∧ (0x1FFFFFFFF#34)[32] = true ∧ (0x2FFFFFFFF#34)[32] = false := by
  decide

theorem witness_StepRunsTheDecodedRequest :
    (State.reset.present 0x27FFFFFFF#34).op.readLow 2 = some 0b10#2 ∧ (0b10#2)[0] = false ∧
    (State.reset.present 0x27FFFFFFF#34).a.readLow 32 = some 0x7FFFFFFF#32 ∧
    upperUndefined.op.readLow 2 = some 0b01#2 ∧ (0b01#2)[0] = true ∧
    upperUndefined.a.readLow 16 = some 0x3C00#16 := by decide

/-- R109, each way a request is refused and the harmless one: `a[31]` and `a[15]` undefined, for a single and a half input,
and `op` undefined. -/
theorem witness_UndefinedLevelsAreRefused :
    isRefused (step { State.reset with op := Vector.replicate 2 .undefined }) = true ∧
    isRefused (step { State.reset with op := #v[.high, .undefined] }) = true ∧
    isRefused (step (oneUndefined 0b00#2 31)) = true ∧ isRefused (step (oneUndefined 0b10#2 0)) = true ∧
    isRefused (step (oneUndefined 0b01#2 15)) = true ∧ isRefused (step (oneUndefined 0b11#2 16)) = false ∧
    settledY (step upperUndefined) = some 0x3F800000#32 ∧ upperUndefined.op[0] = .high ∧
    (∀ j : Fin 32, j.val < 16 → (Port.drive 0x3C00#32)[j] = upperUndefined.a[j]) := by decide

theorem witness_EveryRequestCompletes : Reliable (.toHalf 0x7F800001#32) ∧ Reliable (.toHalfFast 0x00800000#32) ∧
    ¬ Reliable (.toHalfFast 0x7F800000#32) ∧ ¬ Reliable (.toSingleFast 0x0001#16) ∧ Reliable (.toSingleFast 0x7BFF#16) :=
  ⟨trivial, by show inContractS _ = true; decide, by show ¬ inContractS _ = true; decide,
   by show ¬ inContractH _ = true; decide, by show inContractH _ = true; decide⟩

theorem witness_ToHalfZeroPath : isZeroS 0x80000000#32 = true ∧ isZeroS 0x80000001#32 = false := by decide

theorem witness_ToHalfExponentMinimumPath :
    (0x80001FFF#32).extractLsb' 23 8 = 0#8 ∧ (0x80001FFF#32).extractLsb' 0 23 ≠ 0#23 ∧
    ((0x80001FFF#32).extractLsb' 0 23).toNat < 2 ^ 13 ∧ (0x00002000#32).extractLsb' 23 8 = 0#8 ∧
    (0x00002000#32).extractLsb' 0 23 ≠ 0#23 ∧ ¬ ((0x00002000#32).extractLsb' 0 23).toNat < 2 ^ 13 := by decide

theorem witness_ToHalfSpecialPath :
    ((0xFF800000#32).extractLsb' 23 8 = 255#8 ∧ (0xFF800000#32).extractLsb' 0 23 = 0#23) ∧
    ((0x7F802000#32).extractLsb' 23 8 = 255#8 ∧ (0x7F802000#32).extractLsb' 13 10 ≠ 0#10) ∧
    ((0xFF801FFF#32).extractLsb' 23 8 = 255#8 ∧ (0xFF801FFF#32).extractLsb' 0 23 ≠ 0#23 ∧
      (0xFF801FFF#32).extractLsb' 13 10 = 0#10) ∧
    (built false).config.nanPreserve = false ∧ (built true).config.nanPreserve = true := by decide

theorem witness_ToHalfNormalPath :
    [0x00800000#32, 0x387FFFFF#32, 0x38800000#32, 0x477FFFFF#32, 0x47800000#32, 0x7F7FFFFF#32].map
      (fun x => (x.extractLsb' 23 8).toNat) = [1, 112, 113, 142, 143, 254] := by decide

theorem witness_ToHalfIsItsClosedForm :
    (built true).config.nanPreserve = true ∧ (0x7F800001#32).extractLsb' 23 8 = 255#8 ∧
    (0x7F800001#32).extractLsb' 0 23 ≠ 0#23 ∧ (0x7F800001#32).extractLsb' 13 10 = 0#10 ∧
    (0x7F802000#32).extractLsb' 13 10 ≠ 0#10 ∧ (built false).config.nanPreserve = false := by decide

theorem witness_ToSingleZeroPath : isZeroH 0x8000#16 = true ∧ isZeroH 0x8001#16 = false := by decide

theorem witness_ToSingleExponentMinimumPath : (0x83FF#16).extractLsb' 10 5 = 0#5 ∧
    (0x83FF#16).extractLsb' 0 10 ≠ 0#10 ∧ (0x0001#16).extractLsb' 10 5 = 0#5 ∧ (0x0001#16).extractLsb' 0 10 ≠ 0#10 := by
  decide

theorem witness_ToSingleSpecialPath : (0xFC00#16).extractLsb' 10 5 = 31#5 ∧ (0xFC00#16).extractLsb' 0 10 = 0#10 ∧
    (0x7C01#16).extractLsb' 10 5 = 31#5 ∧ (0x7C01#16).extractLsb' 0 10 ≠ 0#10 := by decide

theorem witness_ToSingleNormalPathIsExact : ((0x0400#16).extractLsb' 10 5).toNat = 1 ∧
    ((0x7BFF#16).extractLsb' 10 5).toNat = 30 := by decide

theorem witness_ToHalfFastInContract : (0x80000000#32).extractLsb' 0 31 = 0#31 ∧
    1 ≤ ((0x00800000#32).extractLsb' 23 8).toNat ∧ ((0x7F7FFFFF#32).extractLsb' 23 8).toNat ≤ 254 ∧
    inContractS 0x80000000#32 = true ∧ inContractS 0x00800000#32 = true ∧ inContractS 0x7F7FFFFF#32 = true := by decide

theorem witness_ToHalfFastOutOfContract :
    ((0x007FFFFF#32).extractLsb' 23 8 = 0#8 ∧ (0x007FFFFF#32).extractLsb' 0 23 ≠ 0#23) ∧
    (0x7F800000#32).extractLsb' 23 8 = 255#8 := by decide

theorem witness_RecommendedToHalfFastIsToHalf : (built false).config.nanPreserve = false ∧
    (0x00400000#32).extractLsb' 23 8 = 0#8 ∧ (0x00400000#32).extractLsb' 0 23 ≠ 0#23 ∧
    (0x7FC00000#32).extractLsb' 23 8 = 255#8 := by decide

theorem witness_ToSingleFastInContract : (0x8000#16).extractLsb' 0 15 = 0#15 ∧
    1 ≤ ((0x0400#16).extractLsb' 10 5).toNat ∧ ((0x7BFF#16).extractLsb' 10 5).toNat ≤ 30 ∧
    inContractH 0x8000#16 = true ∧ inContractH 0x0400#16 = true ∧ inContractH 0x7BFF#16 = true := by decide

theorem witness_ToSingleFastOutOfContract :
    ((0x0001#16).extractLsb' 10 5 = 0#5 ∧ (0x0001#16).extractLsb' 0 10 ≠ 0#10) ∧
    (0x7C00#16).extractLsb' 10 5 = 31#5 := by decide

theorem witness_FastRoundTripIsThePreciseOne : ((0x38800000#32).extractLsb' 23 8).toNat = 113 ∧
    ((0xC77FFFFF#32).extractLsb' 23 8).toNat = 142 := by decide

theorem witness_ToHalfFastAgreesWithToHalf : inContractS 0x00800000#32 = true ∧ inContractS 0xFF7FFFFF#32 = true ∧
    inContractS 0x00000000#32 = true := by decide

theorem witness_RecommendedToSingleFastOutOfContract : (0x83FF#16).extractLsb' 10 5 = 0#5 ∧
    (0x83FF#16).extractLsb' 0 10 ≠ 0#10 ∧ (0xFC00#16).extractLsb' 10 5 = 31#5 := by decide

theorem witness_SignIsCopied : inContractS 0xFF7FFFFF#32 = true ∧ inContractH 0xFBFF#16 = true := by decide

theorem witness_PreciseRoundTripRelativeError : ((0xB8800000#32).extractLsb' 23 8).toNat = 113 ∧
    ((0x477FFFFF#32).extractLsb' 23 8).toNat = 142 := by decide

theorem witness_ZeroDetectorsAndZeroResults : classS 0x00000001#32 = .denormal ∧ classS 0x7F800000#32 = .infinity ∧
    classS 0xFFC00000#32 = .nan := by decide

theorem witness_SaturationKeepsTheMantissa :
    [0x00800000#32, 0x387FFFFF#32, 0x47800000#32, 0xFF7FFFFF#32].map (fun x => (x.extractLsb' 23 8).toNat)
      = [1, 112, 143, 254] := by decide

theorem witness_DenormalsCollapse : (0x00000001#32).extractLsb' 0 31 ≠ 0#31 ∧
    ((0x387FFFFF#32).extractLsb' 23 8).toNat = 112 ∧ (0x38000000#32).extractLsb' 13 10 = 0#10 ∧
    (0x83FF#16).extractLsb' 10 5 = 0#5 ∧ (0x83FF#16).extractLsb' 0 10 ≠ 0#10 := by decide

/-- A step that completes, for the statements about every completing step. -/
theorem witness_EveryStepSettlesTheOutput :
    settledY (step (State.reset.present 0x07149F2CA#34)) = some 0x00007E4F#32 := by decide

/-- A presented state, whose `y` has no value, and a settled one; a step from the first completes, one from `a[31]` undefined
does not. -/
theorem witness_SampledOutputIsNeverStale : NoStaleOutput (State.reset.present 0x07149F2CA#34) ∧
    NoStaleOutput { State.reset.present 0x07149F2CA#34 with y := some 0x00007E4F#32 } ∧
    settledY (step (State.reset.driveInputs (Port.drive 0b00#2) (Port.drive 0x7149F2CA#32))) = some 0x00007E4F#32 ∧
    isRefused (step (State.reset.driveInputs (Port.drive 0b00#2) (State.reset.a.set 31 .undefined))) = true :=
  ⟨fun h => absurd rfl h,
   fun _ => ⟨.toHalf 0x7149F2CA#32, 0x00007E4F#32, by decide, rfl, by decide, by decide, by decide, by decide⟩,
   by decide, by decide⟩

/-- Two states that carry one request, agree on the parameter and differ in `y` and in the draw counter. -/
theorem witness_ResultDependsOnlyOnRequestAndParameter :
    fetch (State.reset.present 0x0C0200000#34) = some (.toHalf 0xC0200000#32) ∧
    fetch { State.reset.present 0x0C0200000#34 with y := some 0xFFFFFFFF#32, draws := 7 } = some (.toHalf 0xC0200000#32) ∧
    Reliable (.toHalf 0xC0200000#32) := ⟨by decide, by decide, trivial⟩

theorem witness_EveryStepKeepsInputsAndParameter :
    drawsAfter (step (State.reset.present 0x300003C00#34)) = some 0 ∧
    drawsAfter (step (State.reset.present 0x300007C00#34)) = some 1 := by decide

theorem witness_ReliableRequestsAreIdempotent :
    fetch (State.reset.present 0x3FFFF7BFF#34) = some (.toSingleFast 0x7BFF#16) ∧ Reliable (.toSingleFast 0x7BFF#16) :=
  ⟨by decide, by show inContractH _ = true; decide⟩

/-- A history with a draw in it, and a reliable request after it. -/
theorem witness_EarlierRequestsHaveNoEffect : decode 0x27F800000#34 = .toHalfFast 0x7F800000#32 ∧
    inContractS 0x7F800000#32 = false ∧ Reliable (decode 0x0C0200000#34) :=
  ⟨by decide, by decide, trivial⟩

/-- Two lines after one result; the second line (W3) runs on what the first appended. -/
theorem witness_WellFormedLinesComplete :
    let ls : List Line := [⟨.toSingle, .result 0⟩, ⟨.toHalf, .result 1⟩]
    linesWellFormed [0x0000C100#32].length ls = true ∧ ls[1]? = some ⟨.toHalf, .result 1⟩ ∧
    (runLines ls [0x0000C100#32] State.reset).map (·.1) = some [0x0000C100#32, 0xC0200000#32, 0x0000C100#32] := by decide

end Sys2Proof.Tests
end

section
/-!
## Classes, contracts and rebias as numbers

The inversion of `classS` and `classH` (R46), the fast contracts as classes (R81, R85), and the two rebias formulas with
their clamp resolved (R56, R57).
-/
namespace Sys2Proof.Machine

theorem classS_eq_zero_iff (sgl : Single) : classS sgl = .zero ↔ expS sgl = 0#8 ∧ manS sgl = 0#23 := by
  unfold classS; split_ifs <;> simp_all

theorem classS_eq_denormal_iff (sgl : Single) : classS sgl = .denormal ↔ expS sgl = 0#8 ∧ manS sgl ≠ 0#23 := by
  unfold classS; split_ifs <;> simp_all

theorem classS_eq_infinity_iff (sgl : Single) : classS sgl = .infinity ↔ expS sgl = 255#8 ∧ manS sgl = 0#23 := by
  unfold classS; split_ifs <;> simp_all

theorem classS_eq_nan_iff (sgl : Single) : classS sgl = .nan ↔ expS sgl = 255#8 ∧ manS sgl ≠ 0#23 := by
  unfold classS; split_ifs <;> simp_all

theorem classS_eq_normal_iff (sgl : Single) : classS sgl = .normal ↔ expS sgl ≠ 0#8 ∧ expS sgl ≠ 255#8 := by
  unfold classS; split_ifs <;> simp_all

theorem classH_eq_zero_iff (h : Half) : classH h = .zero ↔ expH h = 0#5 ∧ manH h = 0#10 := by
  unfold classH; split_ifs <;> simp_all

theorem classH_eq_denormal_iff (h : Half) : classH h = .denormal ↔ expH h = 0#5 ∧ manH h ≠ 0#10 := by
  unfold classH; split_ifs <;> simp_all

theorem classH_eq_infinity_iff (h : Half) : classH h = .infinity ↔ expH h = 31#5 ∧ manH h = 0#10 := by
  unfold classH; split_ifs <;> simp_all

theorem classH_eq_nan_iff (h : Half) : classH h = .nan ↔ expH h = 31#5 ∧ manH h ≠ 0#10 := by
  unfold classH; split_ifs <;> simp_all

theorem classH_eq_normal_iff (h : Half) : classH h = .normal ↔ expH h ≠ 0#5 ∧ expH h ≠ 31#5 := by
  unfold classH; split_ifs <;> simp_all

/-- The zero detector recognises the class of zeros (R46, R53). -/
theorem isZeroS_iff_class (sgl : Single) : isZeroS sgl = true ↔ classS sgl = .zero := by
  rw [isZeroS_iff, classS_eq_zero_iff]

/-- The zero detector recognises the class of zeros (R46, R54). -/
theorem isZeroH_iff_class (h : Half) : isZeroH h = true ↔ classH h = .zero := by
  rw [isZeroH_iff, classH_eq_zero_iff]

/-- The contract of ToHalfFast is the zeros and the normals (R46, R81). -/
theorem inContractS_iff_class (sgl : Single) :
    inContractS sgl = true ↔ classS sgl = .zero ∨ classS sgl = .normal := by
  have range : (1 ≤ (expS sgl).toNat ∧ (expS sgl).toNat ≤ 254) ↔ classS sgl = .normal := by
    rw [classS_eq_normal_iff]; bv_omega
  rw [← isZeroS_iff_class, ← range]
  simp [inContractS]

/-- The contract of ToSingleFast is the zeros and the normals (R46, R85). -/
theorem inContractH_iff_class (h : Half) :
    inContractH h = true ↔ classH h = .zero ∨ classH h = .normal := by
  have range : (1 ≤ (expH h).toNat ∧ (expH h).toNat ≤ 30) ↔ classH h = .normal := by
    rw [classH_eq_normal_iff]; bv_omega
  rw [← isZeroH_iff_class, ← range]
  simp [inContractH]

/-- The rebiased exponent as a number, by the side on which the clamp saturates (R56). -/
theorem rebiasS2H_toNat (e8 : BitVec 8) :
    (rebiasS2H e8).toNat = if e8.toNat ≤ 112 then 0 else if e8.toNat ≤ 142 then e8.toNat - 112 else 31 := by
  rw [rebiasS2H, clamp, BitVec.toNat_ofInt]
  split_ifs <;> omega

/-- The rebiased exponent as a number; it is always in range (R57). -/
theorem rebiasH2S_toNat (e5 : BitVec 5) : (rebiasH2S e5).toNat = e5.toNat + 112 := by
  have := e5.isLt
  rw [rebiasH2S, BitVec.toNat_ofInt]
  omega

/-- A truncated mantissa is 0 exactly where only the dropped 13 bits are set (R59). -/
theorem truncM_eq_zero_iff (m23 : BitVec 23) : truncM m23 = 0#10 ↔ m23.toNat < 2 ^ 13 := by
  rw [← BitVec.toNat_inj, truncM_toNat, BitVec.toNat_ofNat]
  omega

/-- The NaN fix leaves a zero mantissa, an infinity's, alone (R63, R68). -/
@[simp] theorem nanFixM_zero (nanPreserve : Bool) (m10 : BitVec 10) : nanFixM nanPreserve 0#23 m10 = m10 := by
  simp [nanFixM]

/-- The mantissa of a converted NaN as a number (R63, R68). -/
theorem nanFixM_toNat_of_ne_zero (nanPreserve : Bool) {m23 : BitVec 23} (hm : m23 ≠ 0#23) :
    (nanFixM nanPreserve m23 (truncM m23)).toNat =
      if nanPreserve = true ∧ m23.toNat < 2 ^ 13 then 1 else m23.toNat / 2 ^ 13 := by
  simp only [nanFixM, truncM_eq_zero_iff, ne_eq, hm, not_false_eq_true, true_and, ← truncM_toNat]
  split <;> rfl

end Sys2Proof.Machine
end

section
/-!
## The conversions by class

Which path of each mux tree an input's class takes (R65, R73), the result of each path as a packed pattern, and that it is
in the class table of `Safety.lean`.
-/
namespace Sys2Proof.Machine

theorem isZeroS_eq_false_of_class {sgl : Single} (h : classS sgl ≠ .zero) : isZeroS sgl = false :=
  Bool.eq_false_iff.mpr fun hz => h ((isZeroS_iff_class sgl).mp hz)

theorem isZeroH_eq_false_of_class {h : Half} (hc : classH h ≠ .zero) : isZeroH h = false :=
  Bool.eq_false_iff.mpr fun hz => hc ((isZeroH_iff_class h).mp hz)

/-- R66. -/
theorem toHalf_of_zero (nanPreserve : Bool) {sgl : Single} (hc : classS sgl = .zero) :
    toHalf nanPreserve sgl = packH (sgnS sgl) 0#5 0#10 := by
  rw [toHalf, if_pos ((isZeroS_iff_class sgl).mpr hc), zeroH_eq_packH]

/-- R67. -/
theorem toHalf_of_denormal (nanPreserve : Bool) {sgl : Single} (hc : classS sgl = .denormal) :
    toHalf nanPreserve sgl = packH (sgnS sgl) 0#5 (truncM (manS sgl)) := by
  have hz : isZeroS sgl = false := isZeroS_eq_false_of_class (by simp [hc])
  obtain ⟨he, -⟩ := (classS_eq_denormal_iff sgl).mp hc
  simp [toHalf, hz, he, expMinS, expMinH]

/-- R68: the path of the infinities and the NaNs. -/
theorem toHalf_of_special (nanPreserve : Bool) {sgl : Single} (he : expS sgl = 255#8) :
    toHalf nanPreserve sgl = packH (sgnS sgl) 31#5 (nanFixM nanPreserve (manS sgl) (truncM (manS sgl))) := by
  have hz : isZeroS sgl = false := Bool.eq_false_iff.mpr fun hz => by simp [isZeroS_iff, he] at hz
  simp [toHalf, hz, he, expMinS, expMaxS, expMaxH]

/-- R69. -/
theorem toHalf_of_normal (nanPreserve : Bool) {sgl : Single} (hc : classS sgl = .normal) :
    toHalf nanPreserve sgl = packH (sgnS sgl) (rebiasS2H (expS sgl)) (truncM (manS sgl)) := by
  have hz : isZeroS sgl = false := isZeroS_eq_false_of_class (by simp [hc])
  obtain ⟨hmin, hmax⟩ := (classS_eq_normal_iff sgl).mp hc
  simp [toHalf, hz, hmin, hmax, expMinS, expMaxS]

/-- R74. -/
theorem toSingle_of_zero {h : Half} (hc : classH h = .zero) : toSingle h = packS (sgnH h) 0#8 0#23 := by
  rw [toSingle, if_pos ((isZeroH_iff_class h).mpr hc), zeroS_eq_packS]

/-- R75. -/
theorem toSingle_of_denormal {h : Half} (hc : classH h = .denormal) :
    toSingle h = packS (sgnH h) 0#8 (extendM (manH h)) := by
  have hz : isZeroH h = false := isZeroH_eq_false_of_class (by simp [hc])
  obtain ⟨he, -⟩ := (classH_eq_denormal_iff h).mp hc
  simp [toSingle, hz, he, expMinH, expMinS]

/-- R76: the path of the infinities and the NaNs. -/
theorem toSingle_of_special {h : Half} (he : expH h = 31#5) :
    toSingle h = packS (sgnH h) 255#8 (extendM (manH h)) := by
  have hz : isZeroH h = false := Bool.eq_false_iff.mpr fun hz => by simp [isZeroH_iff, he] at hz
  simp [toSingle, hz, he, expMinH, expMaxH, expMaxS]

/-- R77. -/
theorem toSingle_of_normal {h : Half} (hc : classH h = .normal) :
    toSingle h = packS (sgnH h) (rebiasH2S (expH h)) (extendM (manH h)) := by
  have hz : isZeroH h = false := isZeroH_eq_false_of_class (by simp [hc])
  obtain ⟨hmin, hmax⟩ := (classH_eq_normal_iff h).mp hc
  simp [toSingle, hz, hmin, hmax, expMinH, expMaxH]

/-- In contract ToHalfFast computes what ToHalf computes, for either parameter (R84). -/
theorem toHalfFast_eq_toHalf {sgl : Single} (hc : inContractS sgl = true) (nanPreserve : Bool) :
    toHalfFast sgl = toHalf nanPreserve sgl := by
  rcases (inContractS_iff_class sgl).mp hc with hzero | hnormal
  · rw [toHalf_of_zero _ hzero, toHalfFast, if_pos ((isZeroS_iff_class sgl).mpr hzero), zeroH_eq_packH]
  · have hz : isZeroS sgl = false := isZeroS_eq_false_of_class (by simp [hnormal])
    simp [toHalf_of_normal _ hnormal, toHalfFast, hz]

/-- In contract ToSingleFast computes what ToSingle computes (R88). -/
theorem toSingleFast_eq_toSingle {h : Half} (hc : inContractH h = true) : toSingleFast h = toSingle h := by
  rcases (inContractH_iff_class h).mp hc with hzero | hnormal
  · rw [toSingle_of_zero hzero, toSingleFast, if_pos ((isZeroH_iff_class h).mpr hzero), zeroS_eq_packS]
  · have hz : isZeroH h = false := isZeroH_eq_false_of_class (by simp [hnormal])
    simp [toSingle_of_normal hnormal, toSingleFast, hz]

/-- ToHalf answers what its class table allows (R66 to R69). -/
theorem allowedHalf_toHalf (config : Config) (sgl : Single) :
    AllowedHalf config sgl (toHalf config.nanPreserve sgl) := by
  cases hc : classS sgl with
  | zero => simp [AllowedHalf, hc, toHalf_of_zero]
  | denormal => simp [AllowedHalf, hc, toHalf_of_denormal, truncM_toNat]
  | infinity =>
    obtain ⟨he, hm⟩ := (classS_eq_infinity_iff sgl).mp hc
    simp [AllowedHalf, hc, toHalf_of_special _ he, hm, truncM_toNat]
  | nan =>
    obtain ⟨he, hm⟩ := (classS_eq_nan_iff sgl).mp hc
    simp [AllowedHalf, hc, toHalf_of_special _ he, nanFixM_toNat_of_ne_zero _ hm]
  | normal => simp [AllowedHalf, hc, toHalf_of_normal, truncM_toNat, rebiasS2H_toNat]

/-- ToSingle answers what its class table allows (R74 to R77). -/
theorem allowedSingle_toSingle (h : Half) : AllowedSingle h (toSingle h) := by
  cases hc : classH h with
  | zero =>
    obtain ⟨-, hm⟩ := (classH_eq_zero_iff h).mp hc
    simp [AllowedSingle, hc, toSingle_of_zero, hm]
  | denormal => simp [AllowedSingle, hc, toSingle_of_denormal, extendM_toNat]
  | infinity =>
    obtain ⟨he, -⟩ := (classH_eq_infinity_iff h).mp hc
    simp [AllowedSingle, hc, toSingle_of_special he, extendM_toNat]
  | nan =>
    obtain ⟨he, -⟩ := (classH_eq_nan_iff h).mp hc
    simp [AllowedSingle, hc, toSingle_of_special he, extendM_toNat]
  | normal => simp [AllowedSingle, hc, toSingle_of_normal, extendM_toNat, rebiasH2S_toNat]

end Sys2Proof.Machine
end

section
/-!
## What a request and a step do

A reliable request settles `reliableResult` and changes nothing else; an unreliable one also counts its draw; either way
the result is allowed. A step is `exec` of the request on the ports.
-/
namespace Sys2Proof.Machine

/-- The `y` that a reliable request settles: a function of the request and the parameter alone (R21, R107). -/
def reliableResult (config : Config) : Instr → Word
  | .toHalf sgl => halfResult (toHalf config.nanPreserve sgl)
  | .toSingle h => singleResult (toSingle h)
  | .toHalfFast sgl => halfResult (toHalfFast sgl)
  | .toSingleFast h => singleResult (toSingleFast h)

/-- Everything a reliable request does. -/
theorem exec_of_reliable {i : Instr} (h : Reliable i) (s : State) :
    exec i s = .next (s.driveY (reliableResult s.config i)) := by
  cases i with
  | toHalf sgl => exact exec_toHalf sgl s
  | toSingle x => exact exec_toSingle x s
  | toHalfFast sgl => exact exec_toHalfFast_inContract h s
  | toSingleFast x => exact exec_toSingleFast_inContract h s

/-- Every half result fills `y[15:0]` alone (R41). -/
theorem halfResult_toNat_lt (r16 : Half) : (halfResult r16).toNat < 2 ^ 16 := by
  rw [halfResult_toNat]; exact r16.isLt

/-- A reliable request settles a result that the class table of its direction allows. -/
theorem allowed_reliableResult (config : Config) {i : Instr} (h : Reliable i) :
    Allowed config i (reliableResult config i) := by
  cases i with
  | toHalf sgl =>
    refine ⟨halfResult_toNat_lt _, ?_⟩
    rw [reliableResult, extractLsb'_halfResult]
    exact allowedHalf_toHalf config sgl
  | toSingle x => exact allowedSingle_toSingle x
  | toHalfFast sgl =>
    refine ⟨halfResult_toNat_lt _, fun _ => ?_⟩
    rw [reliableResult, extractLsb'_halfResult, toHalfFast_eq_toHalf h config.nanPreserve]
    exact allowedHalf_toHalf config sgl
  | toSingleFast x =>
    intro _
    rw [reliableResult, toSingleFast_eq_toSingle h]
    exact allowedSingle_toSingle x

/-- Everything an unreliable request does: it settles a draw, which is allowed, and counts it (R82, R86). -/
theorem exec_of_not_reliable {i : Instr} (h : ¬ Reliable i) (s : State) :
    ∃ v, Allowed s.config i v ∧ exec i s = .next (s.countDraw.driveY v) := by
  cases i with
  | toHalf sgl => exact absurd trivial h
  | toSingle x => exact absurd trivial h
  | toHalfFast sgl =>
    have out : ¬ inContractS sgl = true := h
    exact ⟨_, ⟨halfResult_toNat_lt _, fun hc => absurd ((inContractS_iff_class sgl).mpr hc) out⟩,
      exec_toHalfFast_outOfContract (Bool.eq_false_iff.mpr out) s⟩
  | toSingleFast x =>
    have out : ¬ inContractH x = true := h
    exact ⟨_, fun hc => absurd ((inContractH_iff_class x).mpr hc) out,
      exec_toSingleFast_outOfContract (Bool.eq_false_iff.mpr out) s⟩

/-- Every request completes with an allowed result; it changes `y` and, where it is not reliable, the draw counter (R90). -/
theorem exec_completes (i : Instr) (s : State) :
    ∃ v, Allowed s.config i v ∧
      (Reliable i ∧ exec i s = .next (s.driveY v) ∨ ¬ Reliable i ∧ exec i s = .next (s.countDraw.driveY v)) := by
  by_cases h : Reliable i
  · exact ⟨_, allowed_reliableResult s.config h, .inl ⟨h, exec_of_reliable h s⟩⟩
  · obtain ⟨v, hv, hexec⟩ := exec_of_not_reliable h s
    exact ⟨v, hv, .inr ⟨h, hexec⟩⟩

/-- A step evaluates the request that is fetched. -/
theorem step_of_fetch {s : State} {i : Instr} (h : fetch s = some i) : step s = exec i s := by
  rw [step_eq, h]

/-- A step that answers a next state has fetched a request. -/
theorem exists_fetch_of_step {s t : State} (h : step s = .next t) : ∃ i, fetch s = some i := by
  cases hf : fetch s with
  | none => rw [step_eq, hf] at h; cases h
  | some i => exact ⟨i, rfl⟩

/-- Everything a completing step can do: it settles an allowed result of the request on the ports, and at most counts a
draw beside it. -/
theorem step_cases {s t : State} (h : step s = .next t) :
    ∃ i v, fetch s = some i ∧ Allowed s.config i v ∧
      (Reliable i ∧ t = s.driveY v ∨ ¬ Reliable i ∧ t = s.countDraw.driveY v) := by
  obtain ⟨i, hi⟩ := exists_fetch_of_step h
  obtain ⟨v, hv, ⟨hr, hexec⟩ | ⟨hr, hexec⟩⟩ := exec_completes i s
  · rw [step_of_fetch hi, hexec] at h
    exact ⟨i, v, hi, hv, .inl ⟨hr, (Host.Outcome.next.inj h).symm⟩⟩
  · rw [step_of_fetch hi, hexec] at h
    exact ⟨i, v, hi, hv, .inr ⟨hr, (Host.Outcome.next.inj h).symm⟩⟩

/-- A state that holds the ports' request and the parameter of `s`, and an allowed result on `y`, is settled. -/
theorem settled_of_allowed {s t : State} {i : Instr} {v : Word} (hi : fetch s = some i) (hv : Allowed s.config i v)
    (hop : t.op = s.op) (ha : t.a = s.a) (hconfig : t.config = s.config) (hy : t.y = some v) : Settled t :=
  ⟨i, v, (fetch_congr hop ha).trans hi, hy, hconfig ▸ hv⟩

/-- From reset with nothing presented a step evaluates ToHalf of +0.0 and changes nothing (R103, log 6). -/
theorem step_reset : step State.reset = .next State.reset := by
  have hfetch : fetch State.reset = some (.toHalf 0#32) := by decide
  have hzero : halfResult (toHalf State.reset.config.nanPreserve 0#32) = 0#32 := by decide
  rw [step_of_fetch hfetch, exec_toHalf, hzero]
  rfl

end Sys2Proof.Machine
end

section
/-!
## The obligations on the machine's state
-/
namespace Sys2Proof.Machine

/-- Settles O33: whatever a step does, it settles an allowed result and leaves the ports and the parameter. -/
theorem everyStepSettlesTheOutput : Obligations.EveryStepSettlesTheOutput := by
  intro s t h
  obtain ⟨i, v, hi, hv, ⟨-, rfl⟩ | ⟨-, rfl⟩⟩ := step_cases h
  · exact settled_of_allowed hi hv rfl rfl rfl rfl
  · exact settled_of_allowed hi hv rfl rfl rfl rfl

/-- Settles O36, by the two ways a step completes: with a draw counted and without. -/
theorem everyStepKeepsInputsAndParameter : Obligations.EveryStepKeepsInputsAndParameter := by
  intro s t h
  obtain ⟨i, v, -, -, ⟨-, rfl⟩ | ⟨-, rfl⟩⟩ := step_cases h
  · simp
  · simp

/-- Settles O37: both steps settle `reliableResult` of the one request under the one parameter. -/
theorem resultDependsOnlyOnRequestAndParameter : Obligations.ResultDependsOnlyOnRequestAndParameter := by
  intro s t i hs ht hconfig hr
  have hsy := (step_of_fetch hs).trans (exec_of_reliable hr s)
  have hty := (step_of_fetch ht).trans (exec_of_reliable hr t)
  exact ⟨_, _, reliableResult s.config i, hsy, hty, rfl, by rw [hconfig]; rfl⟩

/-- Settles O35: the step from reset changes nothing, and what a step leaves is settled (O33). -/
theorem powerUpStateIsSettled : Obligations.PowerUpStateIsSettled :=
  ⟨everyStepSettlesTheOutput _ _ step_reset, step_reset⟩

end Sys2Proof.Machine
end

section
/-!
## A request and the wires that carry it

A reliable request evaluated again (R29), and a step as `exec` of the word that is presented or read from the wires (R37),
with any value on the ignored bits of a half input (R40).
-/
namespace Sys2Proof.Machine

/-- Settling `y` leaves the request on the ports. -/
@[simp] theorem fetch_driveY (s : State) (v : Word) : fetch (s.driveY v) = fetch s := fetch_congr rfl rfl

/-- `y` holds what it settled last. -/
@[simp] theorem State.driveY_driveY (s : State) (u v : Word) : (s.driveY u).driveY v = s.driveY v := rfl

/-- Where a reliable request is on the ports, a step settles its result and changes nothing else (R107). -/
theorem step_of_fetch_reliable {s : State} {i : Instr} (hi : fetch s = some i) (hr : Reliable i) :
    step s = .next (s.driveY (reliableResult s.config i)) :=
  (step_of_fetch hi).trans (exec_of_reliable hr s)

/-- Settles O38: the second step fetches the same request under the same parameter, and settles the `y` that stands. -/
theorem reliableRequestsAreIdempotent : Obligations.ReliableRequestsAreIdempotent := by
  intro s i hi hr
  have hagain : fetch (s.driveY (reliableResult s.config i)) = some i := (fetch_driveY s _).trans hi
  refine ⟨_, step_of_fetch_reliable hi hr, ?_⟩
  rw [step_of_fetch_reliable hagain hr, State.driveY_config, State.driveY_driveY]

/-- A half input decodes alike for all values of the ignored `a[31:16]` (R40). -/
theorem decode_half_ignores_upper {op : BitVec 2} (hdir : op[0] = true) (upper upper' : BitVec 16) (h : Half) :
    decode (requestWord op (upper ++ h)) = decode (requestWord op (upper' ++ h)) :=
  decode_ignores_upper hdir (BitVec.extractLsb'_append_eq_right.trans BitVec.extractLsb'_append_eq_right.symm)

/-- A step evaluates the word on the ports as it decodes (R37). -/
theorem step_of_fetchWord {s : State} {w : RequestWord} (hw : fetchWord s = some w) : step s = exec (decode w) s :=
  step_of_fetch ((fetch_eq_some_iff s _).mpr ⟨w, hw, rfl⟩)

/-- Settles O5, by the word that is fetched: the presented one, and by `op[0]` the one the wires carry, in which the
unread `a[31:16]` stands as 0. -/
theorem stepRunsTheDecodedRequest : Obligations.StepRunsTheDecodedRequest := by
  refine ⟨fun s w => ?presented, fun s op sgl hop hdir ha => ?single, fun s op upper h hop hdir ha => ?half⟩
  case presented => exact step_of_fetch (fetch_present s w)
  case single => exact step_of_fetchWord (fetchWord_single hop hdir ha)
  case half =>
    have hignored : decode (requestWord op (0#16 ++ h)) = decode (op ++ (upper ++ h)) :=
      decode_half_ignores_upper hdir 0#16 upper h
    rw [step_of_fetchWord (fetchWord_half hop hdir ha), hignored]

end Sys2Proof.Machine
end

section
/-!
## Encoding: request words and patterns as their fields

The two directions of the decoder (R37, R39, R40), the table's mask and match (R51), and the composers of the two formats
(R45).
-/
namespace Sys2Proof

/-- Each code selects the operation it is the code of (R39). -/
@[simp] theorem Operation.ofCode_code (o : Operation) : Operation.ofCode o.code = o := by cases o <;> rfl

/-- Every `op` value is the code of the operation it selects (R39). -/
@[simp] theorem Operation.code_ofCode : ∀ op : BitVec 2, (Operation.ofCode op).code = op := by decide

/-- A word decodes to a request of the operation that `w[33:32]` selects (R39, R51). -/
@[simp] theorem operation_decode (w : RequestWord) : (decode w).operation = Operation.ofCode (opField w) := by
  cases h : Operation.ofCode (opField w) <;> simp [decode, Instr.operation, h]

/-- `a` of a decoded request: `w[31:0]`, with the upper half cleared where `op[0]` is 1 (R39, R40). -/
theorem operandWord_decode (w : RequestWord) :
    (decode w).operandWord = if (opField w)[0] then 0#16 ++ (aField w).extractLsb' 0 16 else aField w := by
  cases h1 : (opField w)[1] <;> cases h0 : (opField w)[0] <;>
    simp [decode, Operation.ofCode, Instr.operandWord, h1, h0]

/-- Decoding an encoded instruction selects its operation by the code and reads its operand back (R37, R39, R40). -/
theorem decode_encode (i : Instr) : decode (encode i) = i := by
  have half (h : Half) : (0#16 ++ h : Word).extractLsb' 0 16 = h := BitVec.extractLsb'_append_eq_right
  cases i <;> simp [decode, encode, Instr.operation, Instr.operandWord, half]

/-- The direction bit `op[0]` of a request word is `w[32]` (R37, R39). -/
theorem opField_getElem_zero (w : RequestWord) : (opField w)[0] = w[32] := BitVec.getElem_extractLsb' _

/-- Request words are masked field by field. -/
theorem requestWord_and (op op' : BitVec 2) (a a' : Word) :
    requestWord op a &&& requestWord op' a' = requestWord (op &&& op') (a &&& a') := BitVec.and_append

/-- Masking `a` with its low 16 bits clears `a[31:16]`. -/
theorem and_lowHalf (a : Word) : a &&& 0x0000FFFF#32 = 0#16 ++ a.extractLsb' 0 16 := by
  have halves : (a.extractLsb' 16 16 ++ a.extractLsb' 0 16 : Word) = a :=
    (BitVec.extractLsb'_append_extractLsb'_eq_extractLsb' rfl).trans BitVec.extractLsb'_eq_self
  have mask : 0x0000FFFF#32 = 0#16 ++ BitVec.allOnes 16 := by decide
  calc a &&& 0x0000FFFF#32
      = (a.extractLsb' 16 16 ++ a.extractLsb' 0 16) &&& (0#16 ++ BitVec.allOnes 16) := by rw [halves, mask]
    _ = 0#16 ++ a.extractLsb' 0 16 := by rw [BitVec.and_append, BitVec.and_zero, BitVec.and_allOnes]

/-- Masking a request word with all but `w[31:16]` clears the upper half of its `a`. -/
theorem and_keptBits (w : RequestWord) :
    w &&& 0x30000FFFF#34 = requestWord (opField w) (0#16 ++ (aField w).extractLsb' 0 16) := by
  have mask : 0x30000FFFF#34 = requestWord (BitVec.allOnes 2) 0x0000FFFF#32 := by decide
  calc w &&& 0x30000FFFF#34
      = requestWord (opField w) (aField w) &&& requestWord (BitVec.allOnes 2) 0x0000FFFF#32 := by
        rw [requestWord_fields, mask]
    _ = requestWord (opField w) (0#16 ++ (aField w).extractLsb' 0 16) := by
        rw [requestWord_and, BitVec.and_allOnes, and_lowHalf]

/-- Encoding a decoded word gives the word back, less the bits its operation ignores (R40, log 8). -/
theorem encode_decode (w : RequestWord) : encode (decode w) = if w[32] then w &&& 0x30000FFFF#34 else w := by
  rw [encode, operation_decode, Operation.code_ofCode, operandWord_decode, opField_getElem_zero]
  split
  · exact (and_keptBits w).symm
  · exact requestWord_fields w

/-- Settles O2, by the fields of the request word: the code selects the operation, and of the operand only the ignored
`a[31:16]` is lost. -/
theorem decodeAndEncodeAgree : Obligations.DecodeAndEncodeAgree :=
  ⟨fun i _ => decode_encode i, encode_decode⟩

/-- The half operand `a[15:0]` is `w[15:0]` (R37, R40). -/
theorem aField_lowHalf (w : RequestWord) : (aField w).extractLsb' 0 16 = w.extractLsb' 0 16 := by
  apply BitVec.eq_of_toNat_eq
  rw [slice_toNat, slice_toNat, aField_toNat]
  omega

/-- The match of an operation's row is its code above an operand of zeros (R51). -/
theorem tableMatch_eq_requestWord (o : Operation) : o.tableMatch = requestWord o.code 0#32 := by cases o <;> rfl

/-- A word matches an operation's row under the mask exactly where `w[33:32]` is the operation's code (R51). -/
theorem and_tableMask_eq_tableMatch_iff (w : RequestWord) (o : Operation) :
    w &&& tableMask = o.tableMatch ↔ opField w = o.code := by
  have masked : w &&& tableMask = requestWord (opField w) 0#32 := by
    simpa using Laws.TableRow.masked (opField w) (aField w)
  rw [masked, tableMatch_eq_requestWord]
  constructor
  · intro h
    simpa using congrArg opField h
  · intro h
    rw [h]

/-- Settles O1, by the code in `w[33:32]` for the decoder, and row by row for the table. -/
theorem requestWordDecodesByOp : Obligations.RequestWordDecodesByOp := by
  intro w
  have selects (o : Operation) (h : opField w = o.code) : Operation.ofCode (opField w) = o := by
    rw [h, Operation.ofCode_code]
  refine ⟨fun h => ?_, fun h => ?_, fun h => ?_, fun h => ?_, and_tableMask_eq_tableMatch_iff w .toHalf,
    and_tableMask_eq_tableMatch_iff w .toSingle, and_tableMask_eq_tableMatch_iff w .toHalfFast,
    and_tableMask_eq_tableMatch_iff w .toSingleFast⟩
  · rw [decode, selects .toHalf h, aField]
  · rw [decode, selects .toSingle h, aField_lowHalf]
  · rw [decode, selects .toHalfFast h, aField]
  · rw [decode, selects .toSingleFast h, aField_lowHalf]

namespace Machine

/-- The fields of a single make it up (R45). -/
@[simp] theorem packS_fields (sgl : Single) : packS (sgnS sgl) (expS sgl) (manS sgl) = sgl := by
  apply BitVec.eq_of_toNat_eq
  rw [packS_toNat, sgnS_toNat, expS_toNat, manS_toNat]
  omega

/-- The fields of a half make it up (R45). -/
@[simp] theorem packH_fields (h : Half) : packH (sgnH h) (expH h) (manH h) = h := by
  apply BitVec.eq_of_toNat_eq
  rw [packH_toNat, sgnH_toNat, expH_toNat, manH_toNat]
  omega

/-- Settles O4: the accessors are the slices R43 and R44 give, and composers and accessors undo each other. -/
theorem fieldsComposeBack : Obligations.FieldsComposeBack :=
  ⟨packS_fields, packH_fields,
    fun s e m => ⟨sgnS_packS s e m, expS_packS s e m, manS_packS s e m⟩,
    fun s e m => ⟨sgnH_packH s e m, expH_packH s e m, manH_packH s e m⟩⟩

end Machine

end Sys2Proof
end

section
/-!
## Request lines

A well-formed line has a request word (R50), every presented word completes with a result that can be sampled (R90, R105),
and the run of the lines follows by induction.
-/
namespace Sys2Proof.Machine

/-- A well-formed line names a result that exists, so it has a request word (R50). -/
theorem exists_lineRequestWord {l : Line} {results : List Word} (h : l.wellFormed results.length = true) :
    ∃ w, lineRequestWord l results = some w := by
  obtain ⟨operation, operand⟩ := l
  cases operand with
  | hex8 sgl => exact ⟨_, rfl⟩
  | hex4 upper half => exact ⟨_, rfl⟩
  | result k =>
    have hk : k < results.length := of_decide_eq_true h
    simp [lineRequestWord, lineOperandWord, hk]

/-- A step on a presented word completes, its result can be sampled, and the parameter stays (R90, R105, R19). -/
theorem step_present_samples (s : State) (w : RequestWord) :
    ∃ t y, step (s.present w) = .next t ∧ sampleY t = .next y ∧ t.config = s.config := by
  rw [step_of_fetch (fetch_present s w)]
  obtain ⟨v, -, ⟨-, hexec⟩ | ⟨-, hexec⟩⟩ := exec_completes (decode w) (s.present w)
  · exact ⟨_, v, hexec, sampleY_driveY _ v, rfl⟩
  · exact ⟨_, v, hexec, sampleY_driveY _ v, rfl⟩

/-- A line whose request completes is run by appending its sampled result and running the rest (R50). -/
theorem runLines_cons {l : Line} {results : List Word} {s t : State} {w : RequestWord} {y : Word}
    (hw : lineRequestWord l results = some w) (hstep : step (s.present w) = .next t) (hy : sampleY t = .next y)
    (ls : List Line) : runLines (l :: ls) results s = runLines ls (results ++ [y]) t := by
  simp [runLines, hw, hstep, hy]

/-- Settles O41, by induction on the lines: the first completes, and the rest run on its result and its state. -/
theorem wellFormedLinesComplete : Obligations.WellFormedLinesComplete := by
  intro ls
  induction ls with
  | nil => exact fun results s _ => ⟨[], s, by simp [runLines]⟩
  | cons l ls ih =>
    intro results s hwf
    obtain ⟨hl, hls⟩ : l.wellFormed results.length = true ∧ linesWellFormed (results.length + 1) ls = true := by
      simpa [linesWellFormed] using hwf
    obtain ⟨w, hw⟩ := exists_lineRequestWord hl
    obtain ⟨t, y, hstep, hy, hconfig⟩ := step_present_samples s w
    obtain ⟨rs, u, hrun, hlen, hu, hline⟩ := ih (results ++ [y]) t (by simpa using hls)
    refine ⟨y :: rs, u, ?_, by simp [hlen], hu.trans hconfig, ?_⟩
    · rw [runLines_cons hw hstep hy, hrun, List.append_assoc, List.singleton_append]
    · intro k l' r hk hr
      cases k with
      | zero =>
        obtain rfl : l = l' := by simpa using hk
        obtain rfl : y = r := by simpa using hr
        exact ⟨s, w, t, by simp [runLines], by simpa using hw, hstep, hy⟩
      | succ k =>
        obtain ⟨sk, wk, tk, hbefore, hrest⟩ := hline k l' r hk hr
        rw [List.append_assoc, List.singleton_append] at hbefore hrest
        exact ⟨sk, wk, tk, (runLines_cons hw hstep hy _).trans hbefore, hrest⟩

end Sys2Proof.Machine
end

section
/-!
## The datapath units as slices of the result

The fields of a half result on `y`, the sign on every path (R52), the zero patterns (R53 to R55) and the mantissa widths
(R59 to R61).
-/
namespace Sys2Proof.Machine

/-- A slice below bit 16 of a half result on `y` is the half's own (R41). -/
theorem slice_halfResult (r16 : Half) {lo len : Nat} (h : lo + len ≤ 16) :
    (halfResult r16).extractLsb' lo len = r16.extractLsb' lo len :=
  BitVec.extractLsb'_append_eq_of_add_le h

/-- ToHalf copies the sign on every path (R52). -/
theorem sgnH_toHalf (nanPreserve : Bool) (sgl : Single) : sgnH (toHalf nanPreserve sgl) = sgnS sgl :=
  (allowedHalf_toHalf ⟨nanPreserve⟩ sgl).1

/-- ToSingle copies the sign on every path (R52). -/
theorem sgnS_toSingle (h : Half) : sgnS (toSingle h) = sgnH h :=
  (allowedSingle_toSingle h).1

/-- Settles O30: the class tables of both directions copy the sign, and in contract the fast operations compute what the
precise ones do. -/
theorem signIsCopied : Obligations.SignIsCopied := by
  have sign_half (r16 : Half) : (halfResult r16).extractLsb' 15 1 = sgnH r16 := slice_halfResult r16 (by decide)
  refine fun s => ⟨fun sgl => ?toHalf, fun h => ?toSingle, fun sgl hc => ?toHalfFast, fun h hc => ?toSingleFast⟩
  case toHalf => exact ⟨_, _, exec_toHalf sgl s, rfl, (sign_half _).trans (sgnH_toHalf _ sgl)⟩
  case toSingle => exact ⟨_, _, exec_toSingle h s, rfl, sgnS_toSingle h⟩
  case toHalfFast =>
    refine ⟨_, _, exec_toHalfFast_inContract hc s, rfl, (sign_half _).trans ?_⟩
    rw [toHalfFast_eq_toHalf hc false]
    exact sgnH_toHalf false sgl
  case toSingleFast =>
    refine ⟨_, _, exec_toSingleFast_inContract hc s, rfl, ?_⟩
    rw [toSingleFast_eq_toSingle hc]
    exact sgnS_toSingle h

/-- The single zeros are the two patterns that differ in the sign alone (R53). -/
theorem isZeroS_iff_pattern (sgl : Single) : isZeroS sgl = true ↔ sgl = 0x00000000#32 ∨ sgl = 0x80000000#32 := by
  rw [isZeroS, beq_iff_eq, ← BitVec.toNat_inj, slice_toNat, ← BitVec.toNat_inj, ← BitVec.toNat_inj]
  simp only [BitVec.toNat_ofNat]
  omega

/-- The half zeros are the two patterns that differ in the sign alone (R54). -/
theorem isZeroH_iff_pattern (h : Half) : isZeroH h = true ↔ h = 0x0000#16 ∨ h = 0x8000#16 := by
  rw [isZeroH, beq_iff_eq, ← BitVec.toNat_inj, slice_toNat, ← BitVec.toNat_inj, ← BitVec.toNat_inj]
  simp only [BitVec.toNat_ofNat]
  omega

/-- Settles O28: a zero detector is true of the class of zeros alone, which has the two patterns of its format. -/
theorem zeroDetectorsAndZeroResults : Obligations.ZeroDetectorsAndZeroResults := by
  refine ⟨fun sgl => ⟨beq_iff_eq, isZeroS_iff_pattern sgl, fun hclass => ?_⟩,
    fun h => ⟨beq_iff_eq, isZeroH_iff_pattern h⟩, by decide⟩
  apply isZeroS_eq_false_of_class
  intro hzero
  simp [hzero] at hclass

/-- Truncation undoes widening (R61). -/
@[simp] theorem truncM_extendM (m10 : BitVec 10) : truncM (extendM m10) = m10 := by
  apply BitVec.eq_of_toNat_eq
  rw [truncM_toNat, extendM_toNat]
  omega

/-- Widening undoes truncation exactly where the dropped bits are 0 (R61). -/
theorem extendM_truncM_eq_iff (m23 : BitVec 23) : extendM (truncM m23) = m23 ↔ m23.extractLsb' 0 13 = 0#13 := by
  rw [← BitVec.toNat_inj, ← BitVec.toNat_inj, extendM_toNat, truncM_toNat, slice_toNat, BitVec.toNat_ofNat]
  omega

/-- Settles O29, with the truncated and the widened mantissa as numbers. -/
theorem truncationAndWidening : Obligations.TruncationAndWidening :=
  ⟨fun m23 => ⟨rfl, truncM_toNat m23, rfl, extendM_truncM_eq_iff m23⟩,
    fun m10 => ⟨rfl, extendM_toNat m10, truncM_extendM m10⟩⟩

end Sys2Proof.Machine
end

section
/-!
## Saturation of the rebias

Where the clamp saturates for a normal input (R56, R62), and the class of the half patterns it gives.
-/
namespace Sys2Proof.Machine

/-- The rebias saturates low up to exponent 112 (R56, R62). -/
theorem rebiasS2H_of_le {e8 : BitVec 8} (h : e8.toNat ≤ 112) : rebiasS2H e8 = 0#5 := by
  apply BitVec.eq_of_toNat_eq
  rw [rebiasS2H_toNat, if_pos h, BitVec.toNat_ofNat]

/-- The rebias saturates high from exponent 143 (R56, R62). -/
theorem rebiasS2H_of_ge {e8 : BitVec 8} (h : 143 ≤ e8.toNat) : rebiasS2H e8 = 31#5 := by
  apply BitVec.eq_of_toNat_eq
  rw [rebiasS2H_toNat, if_neg (by omega), if_neg (by omega), BitVec.toNat_ofNat]

/-- A single is normal by the range of its exponent field (R46). -/
theorem classS_eq_normal_iff_range (sgl : Single) :
    classS sgl = .normal ↔ 1 ≤ (expS sgl).toNat ∧ (expS sgl).toNat ≤ 254 := by
  rw [classS_eq_normal_iff]
  bv_omega

/-- A half pattern with exponent field 0 is a zero or a denormal (R46). -/
theorem classH_packH_expMin (s : BitVec 1) (m10 : BitVec 10) :
    classH (packH s 0#5 m10) = if m10 = 0#10 then .zero else .denormal := by
  simp [classH]

/-- A half pattern with exponent field 31 is an infinity or a NaN (R46). -/
theorem classH_packH_expMax (s : BitVec 1) (m10 : BitVec 10) :
    classH (packH s 31#5 m10) = if m10 = 0#10 then .infinity else .nan := by
  simp [classH]

/-- On a normal input ToHalf and ToHalfFast both rebias the exponent and truncate the mantissa (R69, R81). -/
theorem exec_toHalf_or_fast_of_normal {sgl : Single} (hc : classS sgl = .normal) {i : Instr}
    (hi : i = .toHalf sgl ∨ i = .toHalfFast sgl) (s : State) :
    exec i s =
      .next (s.driveY (halfResult (packH (sgnS sgl) (rebiasS2H (expS sgl)) (truncM (manS sgl))))) := by
  rcases hi with rfl | rfl
  · rw [exec_toHalf, toHalf_of_normal _ hc]
  · have hin : inContractS sgl = true := (inContractS_iff_class sgl).mpr (.inr hc)
    rw [exec_toHalfFast_inContract hin, toHalfFast_eq_toHalf hin false, toHalf_of_normal _ hc]

/-- Settles O31: both operations answer the packed rebias and truncation, and the rebias is 0 or 31. -/
theorem saturationKeepsTheMantissa : Obligations.SaturationKeepsTheMantissa := by
  intro sgl s i hi e
  have exponent (r16 : Half) : (halfResult r16).extractLsb' 10 5 = expH r16 := slice_halfResult r16 (by decide)
  have mantissa (r16 : Half) : (halfResult r16).extractLsb' 0 10 = manH r16 := slice_halfResult r16 (by decide)
  have saturatesLow : e ≤ 112 → rebiasS2H (expS sgl) = 0#5 := rebiasS2H_of_le
  have saturatesHigh : 143 ≤ e → rebiasS2H (expS sgl) = 31#5 := rebiasS2H_of_ge
  have answer (h1 : 1 ≤ e) (h254 : e ≤ 254) :=
    exec_toHalf_or_fast_of_normal ((classS_eq_normal_iff_range sgl).mpr ⟨h1, h254⟩) hi s
  refine ⟨fun hlo hhi => ⟨_, _, answer hlo (by omega), rfl, ?_, ?_⟩,
    fun hlo hhi => ⟨_, _, answer (by omega) hhi, rfl, ?_, ?_, ?_⟩⟩
  · rw [exponent, expH_packH, saturatesLow hhi]
  · rw [mantissa, manH_packH, truncM_manS]
  · rw [exponent, expH_packH, saturatesHigh hlo]
  · rw [mantissa, manH_packH, truncM_manS]
  · rw [extractLsb'_halfResult, saturatesHigh hlo, classH_packH_expMax, truncM_manS]

end Sys2Proof.Machine
end

section
/-!
## Values and the denormal collapse

The magnitudes of the finite singles and of the half zeros and denormals are natural multiples of `2^-150` (R47), half
the least single denormal. Two values of the same sign are then compared as natural numbers, and the collapse (R64) is
arithmetic.
-/
namespace Sys2Proof.Machine

/-- The number with sign bit `s` and the magnitude `n` times `2^-150`. -/
def signedUnits (s : BitVec 1) (n : ℕ) : ℚ := signValue s * n / 2 ^ 150

theorem signValue_ne_zero (s : BitVec 1) : signValue s ≠ 0 := pow_ne_zero _ (by norm_num)

/-- Of one sign, different magnitudes are different values. -/
theorem signedUnits_injective (s : BitVec 1) : Function.Injective (signedUnits s) := by
  intro n m h
  have hpos : (2 ^ 150 : ℚ) ≠ 0 := by positivity
  have hscaled : signValue s * (n : ℚ) = signValue s * m := (div_left_inj' hpos).mp h
  exact_mod_cast mul_left_cancel₀ (signValue_ne_zero s) hscaled

/-- The value of a single with exponent field 0 is its mantissa in units of `2^-149` (R47). -/
theorem valueS_of_expMin {sgl : Single} (he : expS sgl = 0#8) :
    valueS sgl = some (signedUnits (sgnS sgl) (2 * (manS sgl).toNat)) := by
  by_cases hm : manS sgl = 0#23
  · simp [valueS, (classS_eq_zero_iff sgl).mpr ⟨he, hm⟩, signedUnits, hm]
  · have hpow : (2 : ℚ) ^ (1 - 127 : ℤ) = 1 / 2 ^ 126 := by norm_num
    rw [valueS, (classS_eq_denormal_iff sgl).mpr ⟨he, hm⟩, signedUnits]
    simp only [hpow]
    push_cast
    congr 1
    ring

/-- The value of a normal single is its significand in units of `2^(e - 150)` (R47). -/
theorem valueS_of_normal {sgl : Single} (hc : classS sgl = .normal) :
    valueS sgl =
      some (signedUnits (sgnS sgl) (2 ^ (expS sgl).toNat * (2 ^ 23 + (manS sgl).toNat))) := by
  have hpow : (2 : ℚ) ^ ((expS sgl).toNat - 127 : ℤ) = 2 ^ (expS sgl).toNat / 2 ^ 127 := by
    rw [zpow_sub₀ two_ne_zero, zpow_natCast]; rfl
  rw [valueS, hc, signedUnits]
  simp only [hpow]
  push_cast
  congr 1
  ring

/-- The value of a half with exponent field 0 is its mantissa in units of `2^-24` (R47). -/
theorem valueH_of_expMin {h : Half} (he : expH h = 0#5) :
    valueH h = some (signedUnits (sgnH h) (2 ^ 126 * (manH h).toNat)) := by
  by_cases hm : manH h = 0#10
  · simp [valueH, (classH_eq_zero_iff h).mpr ⟨he, hm⟩, signedUnits, hm]
  · have hpow : (2 : ℚ) ^ (1 - 15 : ℤ) = 1 / 2 ^ 14 := by norm_num
    rw [valueH, (classH_eq_denormal_iff h).mpr ⟨he, hm⟩, signedUnits]
    simp only [hpow]
    push_cast
    congr 1
    ring

/-- A single denormal is too small for any half (R67): no multiple of `2^125` is a mantissa but 0. -/
theorem denormal_units_ne {m : ℕ} (hm : m < 2 ^ 23) (hpos : m ≠ 0) (t : ℕ) : 2 ^ 126 * t ≠ 2 * m := by
  omega

/-- The truncated mantissa at the half exponent minimum never has the units of a normal single: cleared of powers of 2,
equality reads `(2^k - 1) * t = 2^10`, whose odd factor is 1, so that `t = 2^10` is no 10-bit mantissa. -/
theorem normal_units_ne {e m : ℕ} (he : e ≤ 112) (hm : m < 2 ^ 23) :
    2 ^ 126 * (m / 2 ^ 13) ≠ 2 ^ e * (2 ^ 23 + m) := by
  intro h
  obtain ⟨k, hk⟩ : ∃ k, 112 = e + k := ⟨112 - e, by omega⟩
  have hsplit : 2 ^ 126 = 2 ^ e * (2 ^ 14 * 2 ^ k) := by
    rw [← pow_add, ← pow_add]; congr 1; omega
  have hreduced : 2 ^ 14 * (2 ^ k * (m / 2 ^ 13)) = 2 ^ 23 + m := by
    rw [hsplit, mul_assoc, mul_assoc] at h
    exact Nat.eq_of_mul_eq_mul_left (by positivity) h
  have hexact : 2 * (2 ^ k * (m / 2 ^ 13)) = 2 ^ 10 + m / 2 ^ 13 := by omega
  have hfactor : (2 * 2 ^ k - 1) * (m / 2 ^ 13) = 2 ^ 10 := by
    rw [Nat.sub_mul, mul_assoc, hexact]; omega
  have hpos : 1 ≤ 2 * 2 ^ k := Nat.mul_pos two_pos (Nat.two_pow_pos k)
  have hodd : Odd (2 * 2 ^ k - 1) := Nat.Even.sub_odd hpos (even_two_mul _) odd_one
  have hone : 2 * 2 ^ k - 1 = 1 :=
    (hodd.coprime_two_right.pow_right 10).eq_one_of_dvd ⟨_, hfactor.symm⟩
  rw [hone] at hfactor
  omega

/-- A nonzero single up to exponent 112 is a denormal or a normal (R46). -/
theorem denormal_or_normal_of_le {sgl : Single} (hz : sgl.extractLsb' 0 31 ≠ 0#31) (he : (expS sgl).toNat ≤ 112) :
    classS sgl = .denormal ∨ classS sgl = .normal := by
  have hzero : classS sgl ≠ .zero := fun hc => hz (beq_iff_eq.mp ((isZeroS_iff_class sgl).mpr hc))
  have hmax : expS sgl ≠ 255#8 := by bv_omega
  cases hc : classS sgl with
  | zero => exact absurd hc hzero
  | denormal => exact .inl rfl
  | infinity => exact absurd ((classS_eq_infinity_iff sgl).mp hc).1 hmax
  | nan => exact absurd ((classS_eq_nan_iff sgl).mp hc).1 hmax
  | normal => exact .inr rfl

/-- Up to exponent 112 ToHalf answers exponent field 0 and the truncated mantissa (R67, R69, R62). -/
theorem toHalf_of_le (nanPreserve : Bool) {sgl : Single} (hc : classS sgl = .denormal ∨ classS sgl = .normal)
    (he : (expS sgl).toNat ≤ 112) : toHalf nanPreserve sgl = packH (sgnS sgl) 0#5 (truncM (manS sgl)) := by
  rcases hc with hc | hc
  · exact toHalf_of_denormal nanPreserve hc
  · rw [toHalf_of_normal nanPreserve hc, rebiasS2H_of_le he]

/-- The half pattern that a nonzero single up to exponent 112 collapses to has another value (R64). -/
theorem collapse_changes_value {sgl : Single} (hc : classS sgl = .denormal ∨ classS sgl = .normal)
    (he : (expS sgl).toNat ≤ 112) :
    ∃ v r : ℚ, valueS sgl = some v ∧ valueH (packH (sgnS sgl) 0#5 (truncM (manS sgl))) = some r ∧ r ≠ v := by
  have hr := valueH_of_expMin (expH_packH (sgnS sgl) 0#5 (truncM (manS sgl)))
  rw [sgnH_packH, manH_packH, truncM_toNat] at hr
  have hm := (manS sgl).isLt
  rcases hc with hc | hc
  · obtain ⟨hmin, hne⟩ := (classS_eq_denormal_iff sgl).mp hc
    have hpos : (manS sgl).toNat ≠ 0 := by simpa [← BitVec.toNat_inj] using hne
    exact ⟨_, _, valueS_of_expMin hmin, hr, (signedUnits_injective _).ne (denormal_units_ne hm hpos _)⟩
  · exact ⟨_, _, valueS_of_normal hc, hr, (signedUnits_injective _).ne (normal_units_ne he hm)⟩

/-- The single denormal that a half denormal becomes has another value (R75). -/
theorem widened_denormal_changes_value {h : Half} (he : expH h = 0#5) (hm : manH h ≠ 0#10) :
    ∃ v r : ℚ, valueH h = some v ∧ valueS (packS (sgnH h) 0#8 (extendM (manH h))) = some r ∧ r ≠ v := by
  have hr := valueS_of_expMin (expS_packS (sgnH h) 0#8 (extendM (manH h)))
  rw [sgnS_packS, manS_packS, extendM_toNat] at hr
  have hpos : (manH h).toNat ≠ 0 := by simpa [← BitVec.toNat_inj] using hm
  exact ⟨_, _, valueH_of_expMin he, hr, (signedUnits_injective _).ne (by omega)⟩

/-- A widened mantissa is 0 exactly where the mantissa is (R60). -/
theorem extendM_eq_zero_iff (m10 : BitVec 10) : extendM m10 = 0#23 ↔ m10 = 0#10 := by
  rw [← BitVec.toNat_inj, ← BitVec.toNat_inj, extendM_toNat]
  simp

/-- Settles O32: below exponent 113 the result is exponent 0 and the truncated or widened mantissa, and as multiples of
`2^-150` no such result has the input's magnitude. -/
theorem denormalsCollapse : Obligations.DenormalsCollapse := by
  constructor
  case left =>
    intro sgl s hz he r16
    have hr16 : r16 = packH (sgnS sgl) 0#5 (truncM (manS sgl)) := by rw [truncM_manS]; rfl
    have hc : classS sgl = .denormal ∨ classS sgl = .normal := denormal_or_normal_of_le hz he
    rw [hr16]
    refine ⟨?_, ?_, fun hm => ?_, collapse_changes_value hc he⟩
    · rw [exec_toHalf, toHalf_of_le _ hc he]; rfl
    · rw [classH_packH_expMin]
      split
      · exact .inl rfl
      · exact .inr rfl
    · rw [truncM_manS, hm]
      exact (zeroH_eq_packH (sgnS sgl)).symm
  case right =>
    intro h s he hm r32
    have hr32 : r32 = packS (sgnH h) 0#8 (extendM (manH h)) := rfl
    rw [hr32]
    refine ⟨?_, ?_, widened_denormal_changes_value he hm⟩
    · rw [exec_toSingle, toSingle_of_denormal ((classH_eq_denormal_iff h).mpr ⟨he, hm⟩)]; rfl
    · rw [classS_eq_denormal_iff, expS_packS, manS_packS, ne_eq, extendM_eq_zero_iff]
      exact ⟨rfl, hm⟩

end Sys2Proof.Machine
end

section
/-!
## ToHalf, path by path

The swapped and the closed form of the mux tree rest on three paths: the exponent minimum, zeros included, the exponent
maximum and the normals (R70). Each path's answer is a packed pattern on `y`.
-/
namespace Sys2Proof.Machine

/-- The mantissa fix leaves a nonzero truncated mantissa alone (R63). -/
theorem nanFixM_of_ne_zero (nanPreserve : Bool) (m23 : BitVec 23) {m10 : BitVec 10} (hm : m10 ≠ 0#10) :
    nanFixM nanPreserve m23 m10 = m10 :=
  if_neg fun ⟨_, _, h0⟩ => hm h0

/-- Under `NAN_PRESERVE = 0` there is no mantissa fix (R63). -/
@[simp] theorem nanFixM_false (m23 : BitVec 23) (m10 : BitVec 10) : nanFixM false m23 m10 = m10 := by
  simp [nanFixM]

/-- Under `NAN_PRESERVE = 1` a NaN whose truncated mantissa is 0 gets mantissa 1 (R63). -/
theorem nanFixM_true_of_collapsing {m23 : BitVec 23} {m10 : BitVec 10} (hm : m23 ≠ 0#23) (hm10 : m10 = 0#10) :
    nanFixM true m23 m10 = 1#10 :=
  if_pos ⟨rfl, hm, hm10⟩

/-- The two patterns of a half infinity on `y` (R68). -/
theorem infinity_pattern : ∀ s : BitVec 1,
    (0#16 ++ (s ++ 31#5 ++ 0#10) : Word) = if s = 0#1 then 0x00007C00#32 else 0x0000FC00#32 := by
  decide

/-- The two patterns of a preserved NaN on `y` (R68). -/
theorem preservedNan_pattern : ∀ s : BitVec 1,
    (0#16 ++ (s ++ 31#5 ++ 1#10) : Word) = if s = 0#1 then 0x00007C01#32 else 0x0000FC01#32 := by
  decide

/-- The special class of singles is the exponent maximum (R46). -/
theorem classS_special_iff (sgl : Single) : (classS sgl).special = true ↔ expS sgl = 255#8 := by
  unfold classS; split_ifs <;> simp_all [FpClass.special]

/-- The special class of halves is the exponent maximum (R46). -/
theorem classH_special_iff (h : Half) : (classH h).special = true ↔ expH h = 31#5 := by
  unfold classH; split_ifs <;> simp_all [FpClass.special]

/-- R70: with exponent field 0 the zero path and the denormal path give one pattern. -/
theorem toHalf_of_expMin (nanPreserve : Bool) {sgl : Single} (he : expS sgl = 0#8) :
    toHalf nanPreserve sgl = packH (sgnS sgl) 0#5 (truncM (manS sgl)) := by
  by_cases hm : manS sgl = 0#23
  · rw [toHalf_of_zero _ ((classS_eq_zero_iff sgl).mpr ⟨he, hm⟩), hm]; rfl
  · exact toHalf_of_denormal _ ((classS_eq_denormal_iff sgl).mpr ⟨he, hm⟩)

/-- R78: with exponent field 0 the zero path and the denormal path give one pattern. -/
theorem toSingle_of_expMin {h : Half} (he : expH h = 0#5) : toSingle h = packS (sgnH h) 0#8 (extendM (manH h)) := by
  by_cases hm : manH h = 0#10
  · rw [toSingle_of_zero ((classH_eq_zero_iff h).mpr ⟨he, hm⟩), hm]; rfl
  · exact toSingle_of_denormal ((classH_eq_denormal_iff h).mpr ⟨he, hm⟩)

/-- R71: but for the mantissa fix of the special path, ToHalf rebiases the exponent and truncates the mantissa. -/
theorem toHalf_eq_packH_rebias (nanPreserve : Bool) {sgl : Single}
    (hfix : expS sgl = 255#8 → nanFixM nanPreserve (manS sgl) (truncM (manS sgl)) = truncM (manS sgl)) :
    toHalf nanPreserve sgl = packH (sgnS sgl) (rebiasS2H (expS sgl)) (truncM (manS sgl)) := by
  by_cases hmin : expS sgl = 0#8
  · rw [toHalf_of_expMin _ hmin, hmin]; rfl
  by_cases hmax : expS sgl = 255#8
  · rw [toHalf_of_special _ hmax, hfix hmax, hmax]; rfl
  · exact toHalf_of_normal _ ((classS_eq_normal_iff sgl).mpr ⟨hmin, hmax⟩)

/-- A packed result of ToHalf, its sign the input's, as the `y` that `exec` settles (R41, R65). -/
theorem exec_toHalf_of_eq_packH {sgl : Single} {s : State} {e5 : BitVec 5} {m10 : BitVec 10}
    (h : toHalf s.config.nanPreserve sgl = packH (sgnS sgl) e5 m10) :
    exec (.toHalf sgl) s = .next { s with y := some (0#16 ++ (sgl.extractLsb' 31 1 ++ e5 ++ m10)) } := by
  rw [exec_toHalf, h]; rfl

/-- A packed result of ToSingle, its sign the input's, as the `y` that `exec` settles (R41, R73). -/
theorem exec_toSingle_of_eq_packS {h : Half} {s : State} {e8 : BitVec 8} {m23 : BitVec 23}
    (heq : toSingle h = packS (sgnH h) e8 m23) :
    exec (.toSingle h) s = .next { s with y := some (h.extractLsb' 15 1 ++ e8 ++ m23) } := by
  rw [exec_toSingle, heq]; rfl

/-- Settles O8: the two zero patterns take the zero path. -/
theorem toHalfZeroPath : Obligations.ToHalfZeroPath := by
  intro sgl s
  have answer {z : Single} (hz : isZeroS z = true) :
      exec (.toHalf z) s = .next { s with y := some (0#16 ++ zeroH (z.extractLsb' 31 1)) } := by
    rw [exec_toHalf, toHalf, if_pos hz]; rfl
  exact ⟨isZeroS_iff_pattern sgl, answer, answer (z := 0x00000000#32) rfl, answer (z := 0x80000000#32) rfl⟩

/-- Settles O9: the denormal path, and the collapse of its value (R64). -/
theorem toHalfExponentMinimumPath : Obligations.ToHalfExponentMinimumPath := by
  intro sgl s (he : expS sgl = 0#8) hm r16
  have hr16 : r16 = packH (sgnS sgl) 0#5 (truncM (manS sgl)) := by rw [truncM_manS]; rfl
  have hc : classS sgl = .denormal := (classS_eq_denormal_iff sgl).mpr ⟨he, hm⟩
  rw [hr16]
  refine ⟨hc, exec_toHalf_of_eq_packH (toHalf_of_denormal _ hc), fun hsmall => ?_,
    collapse_changes_value (.inl hc) (by simp [he])⟩
  rw [(truncM_eq_zero_iff (manS sgl)).mpr hsmall]
  exact (zeroH_eq_packH (sgnS sgl)).symm

/-- Settles O10: every row of R68's table is the special path with its mantissa fix evaluated. -/
theorem toHalfSpecialPath : Obligations.ToHalfSpecialPath := by
  intro sgl s he sign m23 m10
  have hm10 : truncM m23 = m10 := truncM_manS sgl
  have answer : exec (.toHalf sgl) s =
      .next { s with y := some (0#16 ++ (sign ++ 31#5 ++ nanFixM s.config.nanPreserve m23 m10)) } :=
    exec_toHalf_of_eq_packH (hm10 ▸ toHalf_of_special _ he)
  refine ⟨answer, fun hinf => ?infinity, fun hne => ⟨?nan, ?isNan⟩, fun hm h0 hp => ?dropped,
    fun hm h0 hp => ?preserved⟩
  case infinity =>
    have h0 : m10 = 0#10 := by rw [← hm10, hinf]; rfl
    rw [answer, hinf, nanFixM_zero, h0, infinity_pattern]
  case nan => rw [answer, nanFixM_of_ne_zero _ _ hne]
  case isNan => exact (classH_packH_expMax sign m10).trans (if_neg hne)
  case dropped => rw [answer, hp, nanFixM_false, h0, infinity_pattern]
  case preserved => rw [answer, hp, nanFixM_true_of_collapsing hm h0, preservedNan_pattern]

/-- Settles O12: the tree is the rebias and the truncation where no mantissa is fixed, and the fix gives 1 elsewhere. -/
theorem toHalfIsItsClosedForm : Obligations.ToHalfIsItsClosedForm := by
  intro sgl s collapsing
  have hm10 : truncM (manS sgl) = sgl.extractLsb' 13 10 := truncM_manS sgl
  refine ⟨fun hkeeps => ?_, fun hp ⟨he, hm, h0⟩ => ?_⟩
  · rw [← hm10]
    refine exec_toHalf_of_eq_packH (toHalf_eq_packH_rebias _ fun he => ?_)
    rcases hkeeps with hp | hkeeps
    · rw [hp, nanFixM_false]
    · exact if_neg fun ⟨_, hm, h0⟩ => hkeeps ⟨he, hm, hm10 ▸ h0⟩
  · have hfixed : nanFixM true (manS sgl) (truncM (manS sgl)) = 1#10 :=
      nanFixM_true_of_collapsing hm (hm10.trans h0)
    rw [he]
    exact exec_toHalf_of_eq_packH (by rw [toHalf_of_special _ he, hp, hfixed]; rfl)

/-- Settles O18: a zero has exponent field 0, so that the path conditions are the classes, and on the exponent minimum
the zero path and the denormal path agree. -/
theorem muxTreePathsAreTheInputClasses : Obligations.MuxTreePathsAreTheInputClasses := by
  constructor
  case left =>
    intro sgl s zero eMin eMax sign m10
    have hzero : zero ↔ expS sgl = 0#8 ∧ manS sgl = 0#23 := beq_iff_eq.symm.trans (isZeroS_iff sgl)
    have hdisjoint : eMax → ¬ eMin := fun h255 h0 => absurd (h255.symm.trans h0) (by decide)
    have hm10 : truncM (manS sgl) = m10 := truncM_manS sgl
    rw [classS_eq_zero_iff, classS_eq_denormal_iff, classS_special_iff, classS_eq_normal_iff]
    refine ⟨hzero, by tauto, by tauto, by tauto, ?_⟩
    rw [← hm10]
    split_ifs with h0 hz h255
    · exact exec_toHalf_of_eq_packH (toHalf_of_expMin _ h0)
    · exact absurd (hzero.mp hz).1 h0
    · exact exec_toHalf_of_eq_packH (toHalf_of_special _ h255)
    · exact exec_toHalf_of_eq_packH (toHalf_of_normal _ ((classS_eq_normal_iff sgl).mpr ⟨h0, h255⟩))
  case right =>
    intro h s zero eMin eMax sign m23
    have hzero : zero ↔ expH h = 0#5 ∧ manH h = 0#10 := beq_iff_eq.symm.trans (isZeroH_iff h)
    have hdisjoint : eMax → ¬ eMin := fun h31 h0 => absurd (h31.symm.trans h0) (by decide)
    rw [classH_eq_zero_iff, classH_eq_denormal_iff, classH_special_iff, classH_eq_normal_iff]
    refine ⟨hzero, by tauto, by tauto, by tauto, ?_⟩
    split_ifs with h0 hz h31
    · exact exec_toSingle_of_eq_packS (toSingle_of_expMin h0)
    · exact absurd (hzero.mp hz).1 h0
    · exact exec_toSingle_of_eq_packS (toSingle_of_special h31)
    · exact exec_toSingle_of_eq_packS (toSingle_of_normal ((classH_eq_normal_iff h).mpr ⟨h0, h31⟩))

end Sys2Proof.Machine
end

section
/-!
## Truncation toward zero

A normal single inside half's normal range truncates to a half normal (R69), and widening that gives the single with the
low 13 mantissa bits cleared (R61, R77). In units of `2^-150` the loss is these bits, scaled by the exponent.
-/
namespace Sys2Proof.Machine

theorem abs_signedUnits (s : BitVec 1) (n : ℕ) : |signedUnits s n| = n / 2 ^ 150 := by
  simp [signedUnits, signValue, abs_div, abs_mul]

/-- Of one sign, the smaller magnitude has the smaller absolute value. -/
theorem abs_signedUnits_le (s : BitVec 1) {n m : ℕ} (h : n ≤ m) : |signedUnits s n| ≤ |signedUnits s m| := by
  rw [abs_signedUnits, abs_signedUnits]
  gcongr

/-- Values of one sign differ by what their magnitudes do. -/
theorem abs_signedUnits_sub (s : BitVec 1) {n m : ℕ} (h : n ≤ m) :
    |signedUnits s m - signedUnits s n| = |signedUnits s m| - |signedUnits s n| := by
  have hdiff : signedUnits s m - signedUnits s n = signedUnits s (m - n) := by
    simp only [signedUnits, Nat.cast_sub h]
    ring
  rw [hdiff, abs_signedUnits, abs_signedUnits, abs_signedUnits, Nat.cast_sub h, sub_div]

/-- Nonzero values of one sign have a positive product. -/
theorem signedUnits_mul_pos (s : BitVec 1) {n m : ℕ} (hn : 0 < n) (hm : 0 < m) :
    0 < signedUnits s n * signedUnits s m := by
  have hsign : 0 < signValue s * signValue s := mul_self_pos.mpr (signValue_ne_zero s)
  calc 0 < signValue s * signValue s * (n / 2 ^ 150) * (m / 2 ^ 150) := by positivity
    _ = signedUnits s n * signedUnits s m := by simp only [signedUnits]; ring

/-- The magnitude, in units of `2^-150`, of the normal single with exponent field `e` and mantissa `m` (R47). -/
def normalUnits (e m : ℕ) : ℕ := 2 ^ e * (2 ^ 23 + m)

theorem normalUnits_pos (e m : ℕ) : 0 < normalUnits e m := by
  unfold normalUnits
  positivity

/-- Clearing the low 13 mantissa bits does not raise the magnitude. -/
theorem normalUnits_truncated_le (e m : ℕ) : normalUnits e (m / 2 ^ 13 * 2 ^ 13) ≤ normalUnits e m := by
  have hcleared : m / 2 ^ 13 * 2 ^ 13 ≤ m := Nat.div_mul_le_self m (2 ^ 13)
  unfold normalUnits
  gcongr

/-- Clearing the low 13 mantissa bits loses less than their weight. -/
theorem normalUnits_lt_truncated_add (e m : ℕ) :
    normalUnits e m < normalUnits e (m / 2 ^ 13 * 2 ^ 13) + 2 ^ e * 2 ^ 13 := by
  have hdropped : 2 ^ 23 + m < 2 ^ 23 + m / 2 ^ 13 * 2 ^ 13 + 2 ^ 13 := by omega
  unfold normalUnits
  rw [← mul_add]
  gcongr

/-- One unit in the last place of the half result is 13 bits of the single (R69). -/
theorem halfUlp_eq (e : ℕ) : (2 : ℚ) ^ (e - 127 - 10 : ℤ) = 2 ^ e * 2 ^ 13 / 2 ^ 150 := by
  rw [sub_sub, zpow_sub₀ two_ne_zero, zpow_natCast, mul_div_assoc, div_eq_mul_inv]
  congr 1
  norm_num

/-- The truncated value is less than one unit in the last place below (R69). -/
theorem abs_signedUnits_lt_truncated_add (s : BitVec 1) (e m : ℕ) :
    |signedUnits s (normalUnits e m)| <
      |signedUnits s (normalUnits e (m / 2 ^ 13 * 2 ^ 13))| + 2 ^ (e - 127 - 10 : ℤ) := by
  rw [abs_signedUnits, abs_signedUnits, halfUlp_eq, ← add_div]
  gcongr
  exact_mod_cast normalUnits_lt_truncated_add e m

/-- One unit in the last place of the half result is at most `2^-10` of a normal value (W15). -/
theorem halfUlp_le (s : BitVec 1) (e m : ℕ) :
    (2 : ℚ) ^ (e - 127 - 10 : ℤ) ≤ 2 ^ (-10 : ℤ) * |signedUnits s (normalUnits e m)| := by
  have hleast : 2 ^ e * 2 ^ 23 ≤ normalUnits e m := by
    unfold normalUnits
    gcongr
    exact Nat.le_add_right _ _
  calc (2 : ℚ) ^ (e - 127 - 10 : ℤ) = 2 ^ (-10 : ℤ) * ((2 ^ e * 2 ^ 23 : ℕ) / 2 ^ 150) := by
        rw [halfUlp_eq, zpow_neg]; push_cast; ring
    _ ≤ 2 ^ (-10 : ℤ) * (normalUnits e m / 2 ^ 150) := by gcongr
    _ = 2 ^ (-10 : ℤ) * |signedUnits s (normalUnits e m)| := by rw [abs_signedUnits]

/-- The value of a half normal is that of the normal single with the widened fields (R47, R77). -/
theorem valueH_of_normal {h : Half} (hc : classH h = .normal) :
    valueH h = some (signedUnits (sgnH h) (normalUnits ((expH h).toNat + 112) ((manH h).toNat * 2 ^ 13))) := by
  have hpow : (2 : ℚ) ^ ((expH h).toNat - 15 : ℤ) = 2 ^ (expH h).toNat / 2 ^ 15 := by
    rw [zpow_sub₀ two_ne_zero, zpow_natCast]; rfl
  rw [valueH, hc, signedUnits, normalUnits, pow_add]
  simp only [hpow]
  push_cast
  rw [Option.some_inj]
  ring

/-- Inside half's normal range the rebias takes 112 off the exponent (R56). -/
theorem rebiasS2H_toNat_of_mid {e8 : BitVec 8} (hlo : 113 ≤ e8.toNat) (hhi : e8.toNat ≤ 142) :
    (rebiasS2H e8).toNat = e8.toNat - 112 := by
  rw [rebiasS2H_toNat, if_neg (by omega), if_pos hhi]

/-- Inside half's normal range the rebias is exact (R56). -/
theorem rebiasS2H_of_mid {e8 : BitVec 8} (hlo : 113 ≤ e8.toNat) (hhi : e8.toNat ≤ 142) :
    rebiasS2H e8 = BitVec.ofNat 5 (e8.toNat - 112) := by
  rw [← rebiasS2H_toNat_of_mid hlo hhi, BitVec.ofNat_toNat, BitVec.setWidth_eq]

/-- Inside half's normal range the two rebiases undo each other (R56, R57). -/
theorem rebiasH2S_rebiasS2H_of_mid {e8 : BitVec 8} (hlo : 113 ≤ e8.toNat) (hhi : e8.toNat ≤ 142) :
    rebiasH2S (rebiasS2H e8) = e8 := by
  apply BitVec.eq_of_toNat_eq
  rw [rebiasH2S_toNat, rebiasS2H_toNat_of_mid hlo hhi]
  omega

/-- Inside half's normal range the rebiased pattern is a half normal (R69). -/
theorem classH_packH_of_mid (s : BitVec 1) {e8 : BitVec 8} (hlo : 113 ≤ e8.toNat) (hhi : e8.toNat ≤ 142)
    (m10 : BitVec 10) : classH (packH s (rebiasS2H e8) m10) = .normal := by
  have he := rebiasS2H_toNat_of_mid hlo hhi
  rw [classH_eq_normal_iff, expH_packH]
  bv_omega

/-- Inside half's normal range ToHalf's result has the input's value with the low 13 mantissa bits cleared (R69). -/
theorem valueH_packH_of_mid (s : BitVec 1) {e8 : BitVec 8} (hlo : 113 ≤ e8.toNat) (hhi : e8.toNat ≤ 142)
    (m23 : BitVec 23) :
    valueH (packH s (rebiasS2H e8) (truncM m23)) =
      some (signedUnits s (normalUnits e8.toNat (m23.toNat / 2 ^ 13 * 2 ^ 13))) := by
  have he : (rebiasS2H e8).toNat + 112 = e8.toNat := by rw [rebiasS2H_toNat_of_mid hlo hhi]; omega
  rw [valueH_of_normal (classH_packH_of_mid s hlo hhi _), sgnH_packH, expH_packH, manH_packH, truncM_toNat, he]

/-- Settles O11: the rebias saturates low, takes 112 off or saturates high, and in between only the low mantissa
bits are lost. -/
theorem toHalfNormalPath : Obligations.ToHalfNormalPath := by
  intro sgl s sign e m10
  have hm10 : truncM (manS sgl) = m10 := truncM_manS sgl
  have hnormal (h1 : 1 ≤ e) (h254 : e ≤ 254) : classS sgl = .normal :=
    (classS_eq_normal_iff_range sgl).mpr ⟨h1, h254⟩
  have answer (h1 : 1 ≤ e) (h254 : e ≤ 254) {e5 : BitVec 5} (he5 : rebiasS2H (expS sgl) = e5) :
      exec (.toHalf sgl) s = .next { s with y := some (0#16 ++ (sign ++ e5 ++ m10)) } :=
    exec_toHalf_of_eq_packH (hm10 ▸ he5 ▸ toHalf_of_normal _ (hnormal h1 h254))
  refine ⟨fun h1 h254 => answer h1 h254 rfl, fun h1 h112 => ?low, fun h113 h142 => ?mid, fun h143 h254 => ?high⟩
  case low =>
    have hclass : classH (sign ++ 0#5 ++ m10) = if m10 = 0#10 then .zero else .denormal :=
      classH_packH_expMin sign m10
    refine ⟨answer h1 (by omega) (rebiasS2H_of_le h112), ?_⟩
    rw [hclass]
    split
    · exact .inl rfl
    · exact .inr rfl
  case mid =>
    intro r16
    have hrebias : rebiasS2H (expS sgl) = BitVec.ofNat 5 (e - 112) := rebiasS2H_of_mid h113 h142
    have hr16 : packH (sgnS sgl) (rebiasS2H (expS sgl)) (truncM (manS sgl)) = r16 := by
      rw [hrebias, hm10]; rfl
    refine ⟨answer (by omega) (by omega) hrebias, hr16 ▸ classH_packH_of_mid _ h113 h142 _, _, _,
      valueS_of_normal (hnormal (by omega) (by omega)), hr16 ▸ valueH_packH_of_mid _ h113 h142 _, ?_, ?_, ?_⟩
    · exact signedUnits_mul_pos _ (normalUnits_pos _ _) (normalUnits_pos _ _)
    · exact abs_signedUnits_le _ (normalUnits_truncated_le _ _)
    · exact abs_signedUnits_lt_truncated_add _ _ _
  case high =>
    exact ⟨answer (by omega) h254 (rebiasS2H_of_ge h143), classH_packH_expMax sign m10⟩

/-- A step on a reliable instruction's own word settles its result and changes nothing else (R37, R107). -/
theorem step_present_encode (s : State) {i : Instr} (hr : Reliable i) :
    step (s.present (encode i)) = .next ((s.present (encode i)).driveY (reliableResult s.config i)) :=
  step_of_fetch_reliable (by rw [fetch_present, decode_encode]) hr

/-- Inside half's normal range ToSingle of ToHalf clears the low 13 mantissa bits (R69, R77). -/
theorem toSingle_toHalf_of_mid (nanPreserve : Bool) {sgl : Single} (hlo : 113 ≤ (expS sgl).toNat)
    (hhi : (expS sgl).toNat ≤ 142) :
    toSingle (toHalf nanPreserve sgl) = packS (sgnS sgl) (expS sgl) (extendM (truncM (manS sgl))) := by
  have hnormal : classS sgl = .normal := (classS_eq_normal_iff_range sgl).mpr (by omega)
  rw [toHalf_of_normal _ hnormal, toSingle_of_normal (classH_packH_of_mid _ hlo hhi _), sgnH_packH, expH_packH,
    manH_packH, rebiasH2S_rebiasS2H_of_mid hlo hhi]

/-- The value of a normal single with its low 13 mantissa bits cleared (R47, R59, R60). -/
theorem valueS_truncated {sgl : Single} (hc : classS sgl = .normal) :
    valueS (packS (sgnS sgl) (expS sgl) (extendM (truncM (manS sgl)))) =
      some (signedUnits (sgnS sgl) (normalUnits (expS sgl).toNat ((manS sgl).toNat / 2 ^ 13 * 2 ^ 13))) := by
  have hclass : classS (packS (sgnS sgl) (expS sgl) (extendM (truncM (manS sgl)))) = .normal := by
    rwa [classS_eq_normal_iff, expS_packS, ← classS_eq_normal_iff]
  rw [valueS_of_normal hclass, sgnS_packS, expS_packS, manS_packS, extendM_toNat, truncM_toNat]; rfl

/-- Settles O40: the round trip clears the low 13 mantissa bits, which is less than one unit in the half's last place,
and that is at most `2^-10` of the value. -/
theorem preciseRoundTripRelativeError : Obligations.PreciseRoundTripRelativeError := by
  intro sgl s (hlo : 113 ≤ (expS sgl).toNat) (hhi : (expS sgl).toNat ≤ 142)
  have hnormal : classS sgl = .normal := (classS_eq_normal_iff_range sgl).mpr (by omega)
  have hround := toSingle_toHalf_of_mid s.config.nanPreserve hlo hhi
  have hle := normalUnits_truncated_le (expS sgl).toNat (manS sgl).toNat
  refine ⟨_, _, _, _, _, _, step_present_encode s (i := .toHalf sgl) trivial, rfl,
    step_present_encode _ (i := .toSingle (toHalf s.config.nanPreserve sgl)) trivial, rfl, ?_,
    valueS_of_normal hnormal, (congrArg valueS hround).trans (valueS_truncated hnormal),
    abs_signedUnits_le _ hle, ?_⟩
  · exact (sgnS_toSingle _).trans (sgnH_toHalf _ sgl)
  · have hloss := sub_left_lt_of_lt_add
      (abs_signedUnits_lt_truncated_add (sgnS sgl) (expS sgl).toNat (manS sgl).toNat)
    exact (abs_signedUnits_sub _ hle).trans_lt (hloss.trans_le (halfUlp_le _ _ _))

end Sys2Proof.Machine
end

section
/-!
## ToSingle, path by path

The result of ToSingle is the input's sign, its widened exponent and its widened mantissa on every path (R79), and
ToHalf undoes each of the three (R80).
-/
namespace Sys2Proof.Machine

/-- The exponent field that ToSingle gives a half's: the two extremes go to the extremes, the rest is rebiased (R79). -/
def widenedExp (e5 : BitVec 5) : BitVec 8 :=
  if e5 = 0#5 then 0#8 else if e5 = 31#5 then 255#8 else rebiasH2S e5

/-- R79: on every path ToSingle keeps the sign and widens the exponent and the mantissa. -/
theorem toSingle_eq_packS (h : Half) : toSingle h = packS (sgnH h) (widenedExp (expH h)) (extendM (manH h)) := by
  unfold widenedExp
  split_ifs with hmin hmax
  · exact toSingle_of_expMin hmin
  · exact toSingle_of_special hmax
  · exact toSingle_of_normal ((classH_eq_normal_iff h).mpr ⟨hmin, hmax⟩)

/-- A half is normal by the range of its exponent field (R46). -/
theorem classH_eq_normal_iff_range (h : Half) :
    classH h = .normal ↔ 1 ≤ (expH h).toNat ∧ (expH h).toNat ≤ 30 := by
  rw [classH_eq_normal_iff]
  bv_omega

/-- The rebiased exponent of a half normal is a single normal's (R46, R77). -/
theorem rebiasH2S_range {e5 : BitVec 5} (hlo : 1 ≤ e5.toNat) (hhi : e5.toNat ≤ 30) :
    113 ≤ (rebiasH2S e5).toNat ∧ (rebiasH2S e5).toNat ≤ 142 := by
  rw [rebiasH2S_toNat]
  omega

/-- ToSingle keeps the value of a half normal (R47, R77). -/
theorem valueS_packS_of_normal {h : Half} (hc : classH h = .normal) :
    valueS (packS (sgnH h) (rebiasH2S (expH h)) (extendM (manH h))) = valueH h := by
  obtain ⟨hlo, hhi⟩ := (classH_eq_normal_iff_range h).mp hc
  have hrange := rebiasH2S_range hlo hhi
  have hclass : classS (packS (sgnH h) (rebiasH2S (expH h)) (extendM (manH h))) = .normal := by
    rw [classS_eq_normal_iff_range, expS_packS]
    omega
  rw [valueS_of_normal hclass, valueH_of_normal hc, sgnS_packS, expS_packS, manS_packS, rebiasH2S_toNat, extendM_toNat]
  rfl

/-- The two patterns of a single infinity (R76). -/
theorem singleInfinity_pattern : ∀ s : BitVec 1,
    (s ++ 255#8 ++ (0#10 ++ 0#13) : Single) = if s = 0#1 then 0x7F800000#32 else 0xFF800000#32 := by
  decide

/-- The widened fields as R79 writes them, in one concatenation. -/
theorem packS_extendM (s : BitVec 1) (e8 : BitVec 8) (m10 : BitVec 10) :
    packS s e8 (extendM m10) = s ++ e8 ++ m10 ++ 0#13 := by
  apply BitVec.eq_of_toNat_eq
  rw [packS_toNat, extendM_toNat, append_toNat (s ++ e8 ++ m10) 0#13, append_toNat (s ++ e8) m10, append_toNat s e8,
    BitVec.toNat_ofNat]
  omega

/-- A word that selects ToSingle decodes to its low 16 bits as the operand (R39, R40). -/
theorem decode_toSingle (upper : BitVec 16) (h : Half) : decode (0b01#2 ++ (upper ++ h)) = .toSingle h :=
  (decode_half_ignores_upper rfl upper 0#16 h).trans (decode_encode (.toSingle h))

/-- A step of ToSingle, for anything on `a[31:16]`, settles its result and changes nothing else (R40, R73). -/
theorem step_present_toSingle (s : State) (upper : BitVec 16) (h : Half) :
    step (s.present (0b01#2 ++ (upper ++ h))) =
      .next ((s.present (0b01#2 ++ (upper ++ h))).driveY (singleResult (toSingle h))) :=
  step_of_fetch_reliable (i := .toSingle h) (by rw [fetch_present, decode_toSingle]) trivial

/-- The clamped rebias undoes the rebias, at the extremes too (R56, R57). -/
@[simp] theorem rebiasS2H_rebiasH2S (e5 : BitVec 5) : rebiasS2H (rebiasH2S e5) = e5 := by
  apply BitVec.eq_of_toNat_eq
  have := e5.isLt
  rw [rebiasS2H_toNat, rebiasH2S_toNat]
  split_ifs <;> omega

/-- The rebias of ToHalf undoes the widening of the exponent (R80). -/
@[simp] theorem rebiasS2H_widenedExp (e5 : BitVec 5) : rebiasS2H (widenedExp e5) = e5 := by
  unfold widenedExp
  split_ifs with hmin hmax
  · rw [hmin]; rfl
  · rw [hmax]; rfl
  · exact rebiasS2H_rebiasH2S e5

/-- A widened mantissa needs no fix: where it is not 0, neither is its truncation (R63, R80). -/
@[simp] theorem nanFixM_extendM (nanPreserve : Bool) (m10 : BitVec 10) :
    nanFixM nanPreserve (extendM m10) m10 = m10 := by
  by_cases hm : m10 = 0#10
  · rw [(extendM_eq_zero_iff m10).mpr hm, nanFixM_zero]
  · exact nanFixM_of_ne_zero nanPreserve _ hm

/-- ToHalf undoes ToSingle on every half, for either parameter (R80). -/
theorem toHalf_toSingle (nanPreserve : Bool) (h : Half) : toHalf nanPreserve (toSingle h) = h := by
  have hfix : nanFixM nanPreserve (manS (toSingle h)) (truncM (manS (toSingle h))) = truncM (manS (toSingle h)) := by
    rw [toSingle_eq_packS, manS_packS, truncM_extendM, nanFixM_extendM]
  rw [toHalf_eq_packH_rebias nanPreserve fun _ => hfix, toSingle_eq_packS, sgnS_packS, expS_packS, manS_packS,
    rebiasS2H_widenedExp, truncM_extendM, packH_fields]

/-- Settles O13: the two zero patterns take the zero path. -/
theorem toSingleZeroPath : Obligations.ToSingleZeroPath := by
  intro h s
  have answer {z : Half} (hz : isZeroH z = true) :
      exec (.toSingle z) s = .next { s with y := some (zeroS (z.extractLsb' 15 1)) } := by
    rw [exec_toSingle, toSingle, if_pos hz]; rfl
  exact ⟨isZeroH_iff_pattern h, answer, answer (z := 0x0000#16) rfl, answer (z := 0x8000#16) rfl⟩

/-- Settles O14: it is the half denormals' part of the collapse (O32). -/
theorem toSingleExponentMinimumPath : Obligations.ToSingleExponentMinimumPath :=
  denormalsCollapse.right

/-- Settles O15: the special path answers the exponent maximum over the widened mantissa, which is 0 exactly for the
infinities. -/
theorem toSingleSpecialPath : Obligations.ToSingleSpecialPath := by
  intro h s he r32
  have answer : exec (.toSingle h) s = .next { s with y := some r32 } :=
    exec_toSingle_of_eq_packS (toSingle_of_special he)
  refine ⟨answer, fun hinf => ?infinity, fun hnan => ?nan⟩
  case infinity =>
    have hr32 : r32 = h.extractLsb' 15 1 ++ 255#8 ++ (0#10 ++ 0#13) := by simp only [r32, hinf]
    rw [answer, hr32, singleInfinity_pattern]
  case nan =>
    have hr32 : r32 = packS (sgnH h) 255#8 (extendM (manH h)) := rfl
    rw [hr32, classS_eq_nan_iff, expS_packS, manS_packS, ne_eq, extendM_eq_zero_iff]
    exact ⟨rfl, hnan⟩

/-- Settles O16: the rebias of a half normal's exponent is a single normal's, and in units of `2^-150` the two patterns
have one magnitude. -/
theorem toSingleNormalPathIsExact : Obligations.ToSingleNormalPathIsExact := by
  intro h s hlo hhi r32
  have hc : classH h = .normal := (classH_eq_normal_iff_range h).mpr ⟨hlo, hhi⟩
  obtain ⟨h113, h142⟩ := rebiasH2S_range hlo hhi
  have hvalue : valueS r32 = valueH h := valueS_packS_of_normal hc
  exact ⟨exec_toSingle_of_eq_packS (toSingle_of_normal hc), rebiasH2S_toNat _, h113, h142, _, valueH_of_normal hc,
    hvalue.trans (valueH_of_normal hc)⟩

/-- Settles O17: the result's fields are the sign and the widened exponent and mantissa, whether the request is executed
or presented. -/
theorem toSingleIsItsClosedForm : Obligations.ToSingleIsItsClosedForm := by
  refine ⟨?_, rfl, rfl⟩
  intro s upper h e8 w
  have hresult : singleResult (toSingle h) = h.extractLsb' 15 1 ++ e8 ++ h.extractLsb' 0 10 ++ 0#13 :=
    (toSingle_eq_packS h).trans (packS_extendM _ _ _)
  rw [← hresult]
  exact ⟨step_present_toSingle s upper h, exec_toSingle h s⟩

/-- Settles O19: the two steps settle ToSingle of `h` and ToHalf of that, which is `h` under either parameter. -/
theorem halfToSingleToHalfIsIdentity : Obligations.HalfToSingleToHalfIsIdentity := by
  intro s upper h
  refine ⟨_, _, _, step_present_toSingle s upper h, rfl,
    step_present_encode _ (i := .toHalf (toSingle h)) trivial, ?_⟩
  exact congrArg (some ∘ halfResult) (toHalf_toSingle s.config.nanPreserve h)

end Sys2Proof.Machine
end

section
/-!
## The fast operations

In contract each fast operation does what the precise one does (R84, R88), and out of contract it settles a draw (R82,
R86). The two recommended datapaths, the zero check and step 5 on every input, are `toHalfFast` and `toSingleFast`
themselves: on every single the first is the rebias and the truncation (R83), and the second, but for the zeros, gives a
normal single (R87).
-/
namespace Sys2Proof.Machine

/-- The contract of ToHalfFast on the slices of the pattern (R81). -/
theorem inContractS_iff_slices (sgl : Single) :
    inContractS sgl = true ↔ sgl.extractLsb' 0 31 = 0#31 ∨
      1 ≤ (sgl.extractLsb' 23 8).toNat ∧ (sgl.extractLsb' 23 8).toNat ≤ 254 := by
  simp only [inContractS, isZeroS, Bool.or_eq_true, Bool.and_eq_true, beq_iff_eq, decide_eq_true_eq]
  rfl

/-- The contract of ToSingleFast on the slices of the pattern (R85). -/
theorem inContractH_iff_slices (h : Half) :
    inContractH h = true ↔ h.extractLsb' 0 15 = 0#15 ∨
      1 ≤ (h.extractLsb' 10 5).toNat ∧ (h.extractLsb' 10 5).toNat ≤ 30 := by
  simp only [inContractH, isZeroH, Bool.or_eq_true, Bool.and_eq_true, beq_iff_eq, decide_eq_true_eq]
  rfl

/-- Out of ToHalfFast's contract are the denormals, the infinities and the NaNs (R82). -/
theorem inContractS_eq_false_iff (sgl : Single) :
    inContractS sgl = false ↔ expS sgl = 0#8 ∧ manS sgl ≠ 0#23 ∨ expS sgl = 255#8 := by
  have hdisjoint : expS sgl = 255#8 → expS sgl ≠ 0#8 := fun h255 h0 => absurd (h255.symm.trans h0) (by decide)
  rw [← Bool.not_eq_true, inContractS_iff_class, classS_eq_zero_iff, classS_eq_normal_iff]
  tauto

/-- Out of ToSingleFast's contract are the denormals, the infinities and the NaNs (R86). -/
theorem inContractH_eq_false_iff (h : Half) :
    inContractH h = false ↔ expH h = 0#5 ∧ manH h ≠ 0#10 ∨ expH h = 31#5 := by
  have hdisjoint : expH h = 31#5 → expH h ≠ 0#5 := fun h31 h0 => absurd (h31.symm.trans h0) (by decide)
  rw [← Bool.not_eq_true, inContractH_iff_class, classH_eq_zero_iff, classH_eq_normal_iff]
  tauto

/-- In contract ToHalfFast does what ToHalf does, under either parameter (R84). -/
theorem exec_toHalfFast_eq_exec_toHalf {sgl : Single} (hc : inContractS sgl = true) (s : State) :
    exec (.toHalfFast sgl) s = exec (.toHalf sgl) s := by
  rw [exec_toHalfFast_inContract hc, exec_toHalf, toHalfFast_eq_toHalf hc]

/-- In contract ToSingleFast does what ToSingle does (R88). -/
theorem exec_toSingleFast_eq_exec_toSingle {h : Half} (hc : inContractH h = true) (s : State) :
    exec (.toSingleFast h) s = exec (.toSingle h) s := by
  rw [exec_toSingleFast_inContract hc, exec_toSingle, toSingleFast_eq_toSingle hc]

/-- The zero check and step 5 of ToHalfFast on the slices of the pattern (R81). -/
theorem toHalfFast_eq_slices (sgl : Single) :
    toHalfFast sgl = if sgl.extractLsb' 0 31 = 0#31 then sgl.extractLsb' 31 1 ++ 0#15
      else sgl.extractLsb' 31 1 ++ rebiasS2H (sgl.extractLsb' 23 8) ++ sgl.extractLsb' 13 10 := by
  rw [toHalfFast, truncM_manS]
  exact if_congr beq_iff_eq rfl rfl

/-- The zero check and step 5 of ToSingleFast on the slices of the pattern (R85). -/
theorem toSingleFast_eq_slices (h : Half) :
    toSingleFast h = if h.extractLsb' 0 15 = 0#15 then h.extractLsb' 15 1 ++ 0#31
      else h.extractLsb' 15 1 ++ rebiasH2S (h.extractLsb' 10 5) ++ (h.extractLsb' 0 10 ++ 0#13) :=
  if_congr beq_iff_eq rfl rfl

/-- Settles O20: the contract's slices make the request reliable, and a reliable request settles its result alone. -/
theorem toHalfFastInContract : Obligations.ToHalfFastInContract := by
  intro sgl s hdom r16 w
  have hc : inContractS sgl = true := (inContractS_iff_slices sgl).mpr hdom
  have hr16 : toHalfFast sgl = r16 := toHalfFast_eq_slices sgl
  rw [← hr16]
  exact ⟨(and_tableMask_eq_tableMatch_iff w .toHalfFast).mpr (opField_requestWord _ sgl),
    step_present_encode s (i := .toHalfFast sgl) hc, exec_toHalfFast_inContract hc s,
    exec_toHalfFast_eq_exec_toHalf hc s⟩

/-- Settles O21: these are the singles out of contract. -/
theorem toHalfFastOutOfContract : Obligations.ToHalfFastOutOfContract :=
  fun sgl s hout => exec_toHalfFast_outOfContract ((inContractS_eq_false_iff sgl).mpr hout) s

/-- The datapath of ToHalfFast is step 5 on every input: its zero check changes nothing (R71, R83). -/
theorem toHalfFast_eq_packH_rebias (sgl : Single) :
    toHalfFast sgl = packH (sgnS sgl) (rebiasS2H (expS sgl)) (truncM (manS sgl)) := by
  rw [toHalfFast]
  split
  case isTrue hz =>
    obtain ⟨he, hm⟩ := (isZeroS_iff sgl).mp hz
    rw [he, hm, zeroH_eq_packH]
    rfl
  case isFalse => rfl

/-- The datapath of ToHalfFast is ToHalf under `NAN_PRESERVE = 0` on every input (R71, R83). -/
theorem toHalf_false_eq_toHalfFast (sgl : Single) : toHalf false sgl = toHalfFast sgl := by
  rw [toHalfFast_eq_packH_rebias, toHalf_eq_packH_rebias false fun _ => nanFixM_false _ _]

/-- Settles O22: without the mantissa fix both are the rebias and the truncation, and the rebias clamps the two exponent
extremes to the half's. -/
theorem recommendedToHalfFastIsToHalf : Obligations.RecommendedToHalfFastIsToHalf := by
  intro sgl s
  have answer {e5 : BitVec 5} (he5 : rebiasS2H (expS sgl) = e5) :
      recommendedToHalfFast sgl = sgl.extractLsb' 31 1 ++ e5 ++ sgl.extractLsb' 13 10 := by
    rw [recommendedToHalfFast, toHalfFast_eq_packH_rebias, he5, truncM_manS]
    rfl
  refine ⟨?datapath, fun hp => ?toHalf, fun (he : expS sgl = 0#8) _ => answer ?denormal,
    fun (he : expS sgl = 255#8) => answer ?special⟩
  case datapath =>
    rw [recommendedToHalfFast, toHalfFast, truncM_manS]
    rfl
  case toHalf =>
    rw [exec_toHalf, hp, toHalf_false_eq_toHalfFast]
    rfl
  case denormal => exact rebiasS2H_of_le (by simp [he])
  case special => exact rebiasS2H_of_ge (by simp [he])

/-- Settles O23: in contract ToHalfFast computes what ToHalf computes, which settles `y` alone. -/
theorem toHalfFastAgreesWithToHalf : Obligations.ToHalfFastAgreesWithToHalf :=
  fun sgl s hc =>
    have hexec := exec_toHalfFast_eq_exec_toHalf hc s
    ⟨hexec, hexec.trans (exec_toHalf sgl s)⟩

/-- A word that selects ToSingleFast decodes to its low 16 bits as the operand (R39, R40). -/
theorem decode_toSingleFast (upper : BitVec 16) (h : Half) :
    decode (0b11#2 ++ (upper ++ h)) = .toSingleFast h :=
  (decode_half_ignores_upper rfl upper 0#16 h).trans (decode_encode (.toSingleFast h))

/-- Settles O24: the contract's slices make the request reliable, and the ignored `a[31:16]` is not decoded. -/
theorem toSingleFastInContract : Obligations.ToSingleFastInContract := by
  intro upper h s hdom r32 w
  have hc : inContractH h = true := (inContractH_iff_slices h).mpr hdom
  have hfetch : fetch (s.present w) = some (.toSingleFast h) := by rw [fetch_present, decode_toSingleFast]
  have hr32 : toSingleFast h = r32 := toSingleFast_eq_slices h
  rw [← hr32]
  exact ⟨(and_tableMask_eq_tableMatch_iff w .toSingleFast).mpr (opField_requestWord _ _),
    step_of_fetch_reliable hfetch hc, exec_toSingleFast_inContract hc s, exec_toSingleFast_eq_exec_toSingle hc s⟩

/-- Settles O25: these are the halves out of contract. -/
theorem toSingleFastOutOfContract : Obligations.ToSingleFastOutOfContract :=
  fun h s hout => exec_toSingleFast_outOfContract ((inContractH_eq_false_iff h).mpr hout) s

/-- On a half that is no zero the datapath of ToSingleFast is step 5 (R87). -/
theorem toSingleFast_of_not_zero {h : Half} (hc : classH h ≠ .zero) :
    toSingleFast h = packS (sgnH h) (rebiasH2S (expH h)) (extendM (manH h)) :=
  if_neg (Bool.eq_false_iff.mp (isZeroH_eq_false_of_class hc))

/-- A rebiased half exponent, the two extremes included, is a normal single's (R57, R87). -/
theorem classS_packS_rebiasH2S (s : BitVec 1) (e5 : BitVec 5) (m23 : BitVec 23) :
    classS (packS s (rebiasH2S e5) m23) = .normal := by
  have := e5.isLt
  rw [classS_eq_normal_iff_range, expS_packS, rebiasH2S_toNat]
  omega

/-- The value of step 5's pattern for any half exponent and mantissa (R47, R87). -/
theorem valueS_packS_rebiasH2S (s : BitVec 1) (e5 : BitVec 5) (m10 : BitVec 10) :
    valueS (packS s (rebiasH2S e5) (extendM m10)) =
      some (signedUnits s (normalUnits (e5.toNat + 112) (m10.toNat * 2 ^ 13))) := by
  rw [valueS_of_normal (classS_packS_rebiasH2S _ _ _), sgnS_packS, expS_packS, manS_packS, rebiasH2S_toNat,
    extendM_toNat]
  rfl

/-- With exponent field 112 a normal's value is its significand times `2^-15` (R47, R87). -/
theorem signedUnits_normalUnits_112 (s : BitVec 1) (m : ℕ) :
    signedUnits s (normalUnits 112 (m * 2 ^ 13)) = signValue s * 2 ^ (-15 : ℤ) * (1 + m / 2 ^ 10) := by
  have hpow : (2 : ℚ) ^ (-15 : ℤ) = 1 / 2 ^ 15 := by norm_num
  rw [signedUnits, normalUnits, hpow]
  push_cast
  ring

/-- With exponent field 143 a normal's magnitude is at least `2^16` (R47, R87). -/
theorem le_abs_signedUnits_normalUnits_143 (s : BitVec 1) (m : ℕ) :
    2 ^ 16 ≤ |signedUnits s (normalUnits 143 m)| := by
  have hleast : 2 ^ 143 * 2 ^ 23 ≤ normalUnits 143 m := Nat.mul_le_mul_left _ (Nat.le_add_right _ _)
  calc (2 : ℚ) ^ 16 = (2 ^ 143 * 2 ^ 23 : ℕ) / 2 ^ 150 := by norm_num
    _ ≤ (normalUnits 143 m : ℚ) / 2 ^ 150 := by gcongr
    _ = |signedUnits s (normalUnits 143 m)| := (abs_signedUnits s _).symm

/-- Settles O26: out of contract the datapath's result is step 5's pattern, whose exponent field is the extreme
exponent plus 112. -/
theorem recommendedToSingleFastOutOfContract : Obligations.RecommendedToSingleFastOutOfContract := by
  intro h m10 r32
  have hstep5 (hc : classH h ≠ .zero) : r32 = packS (sgnH h) (rebiasH2S (expH h)) (extendM (manH h)) :=
    toSingleFast_of_not_zero hc
  refine ⟨rfl, fun (he : expH h = 0#5) hm => ?denormal, fun (he : expH h = 31#5) => ?special⟩
  case denormal =>
    rw [hstep5 fun hc => hm ((classH_eq_zero_iff h).mp hc).2, he]
    refine ⟨expS_packS _ _ _, classS_packS_rebiasH2S _ _ _, ?_⟩
    exact (valueS_packS_rebiasH2S _ _ _).trans (congrArg some (signedUnits_normalUnits_112 _ _))
  case special =>
    have hnotZero : classH h ≠ .zero := by simp [classH_eq_zero_iff, he]
    rw [hstep5 hnotZero, he]
    exact ⟨expS_packS _ _ _, classS_packS_rebiasH2S _ _ _, _, valueS_packS_rebiasH2S _ _ _,
      le_abs_signedUnits_normalUnits_143 _ _⟩

/-- Clearing the low 13 mantissa bits keeps `sgl[31:13]` (R59, R60, R61). -/
theorem packS_extendM_truncM (sgl : Single) :
    packS (sgnS sgl) (expS sgl) (extendM (truncM (manS sgl))) = sgl.extractLsb' 13 19 ++ 0#13 := by
  apply BitVec.eq_of_toNat_eq
  rw [packS_toNat, sgnS_toNat, expS_toNat, extendM_toNat, truncM_toNat, manS_toNat,
    append_toNat (sgl.extractLsb' 13 19) 0#13, slice_toNat, BitVec.toNat_ofNat]
  omega

/-- Settles O27: the single and the half it becomes are both in contract, so the fast trip computes what the precise one
does, and that clears the low 13 mantissa bits. -/
theorem fastRoundTripIsThePreciseOne : Obligations.FastRoundTripIsThePreciseOne := by
  refine ⟨fun h s hc => exec_toSingleFast_eq_exec_toSingle hc s, ?_⟩
  intro sgl s (hlo : 113 ≤ (expS sgl).toNat) (hhi : (expS sgl).toNat ≤ 142)
  have hnormal : classS sgl = .normal := (classS_eq_normal_iff_range sgl).mpr (by omega)
  have hcS : inContractS sgl = true := (inContractS_iff_class sgl).mpr (.inr hnormal)
  have hcH : inContractH (toHalfFast sgl) = true := by
    rw [inContractH_iff_class, toHalfFast_eq_packH_rebias]
    exact .inr (classH_packH_of_mid _ hlo hhi _)
  have hround (nanPreserve : Bool) : toSingle (toHalf nanPreserve sgl) = sgl.extractLsb' 13 19 ++ 0#13 :=
    (toSingle_toHalf_of_mid nanPreserve hlo hhi).trans (packS_extendM_truncM sgl)
  have hfast : toSingleFast (toHalfFast sgl) = sgl.extractLsb' 13 19 ++ 0#13 := by
    rw [toSingleFast_eq_toSingle hcH, toHalfFast_eq_toHalf hcS false, hround]
  refine ⟨_, _, _, _, _, _, step_present_encode s (i := .toHalfFast sgl) hcS, rfl, ?contract,
    step_present_encode _ (i := .toSingleFast (toHalfFast sgl)) hcH,
    step_present_encode s (i := .toHalf sgl) trivial, rfl,
    step_present_encode _ (i := .toSingle (toHalf s.config.nanPreserve sgl)) trivial, ?agree, congrArg some hfast⟩
  case contract => exact (congrArg inContractH (extractLsb'_halfResult _)).trans hcH
  case agree => exact congrArg some (hfast.trans (hround s.config.nanPreserve).symm)

end Sys2Proof.Machine
end

section
/-!
## Completion of every request
-/
namespace Sys2Proof.Machine

/-- An allowed result of either operation with a half result fills `y[15:0]` alone (R41). -/
theorem slice_high_of_allowed {config : Config} {i : Instr} {y : Word} (hy : Allowed config i y)
    (hi : i.operation = .toHalf ∨ i.operation = .toHalfFast) : y.extractLsb' 16 16 = 0#16 := by
  have low_only (hlt : y.toNat < 2 ^ 16) : y.extractLsb' 16 16 = 0#16 := by
    apply BitVec.eq_of_toNat_eq
    rw [slice_toNat, Nat.div_eq_of_lt hlt, Nat.zero_mod, BitVec.toNat_zero]
  cases i with
  | toHalf sgl => exact low_only hy.1
  | toHalfFast sgl => exact low_only hy.1
  | toSingle h => simp [Instr.operation] at hi
  | toSingleFast h => simp [Instr.operation] at hi

/-- Settles O7, by the two ways a request completes: reliable, with no draw, and out of contract, with one counted. -/
theorem everyRequestCompletes : Obligations.EveryRequestCompletes := by
  intro i s
  obtain ⟨y, hy, ⟨hr, hexec⟩ | ⟨hr, hexec⟩⟩ := exec_completes i s
  · exact ⟨_, y, hexec, rfl, rfl, rfl, rfl, fun _ => rfl, fun hn => absurd hr hn, slice_high_of_allowed hy⟩
  · exact ⟨_, y, hexec, rfl, rfl, rfl, rfl, fun hn => absurd hn hr, fun _ => rfl, slice_high_of_allowed hy⟩

end Sys2Proof.Machine
end

section
/-!
## Undefined levels

What the wires of a port say of a read (R109), when the fetch finds no request, and that a request reads nothing else of
the inputs.
-/
namespace Sys2Proof.Machine

/-- A read of the low `k` wires fails exactly when one of them is at an undefined level (R109). -/
theorem Port.readLow_eq_none_iff_getElem {n k : Nat} (p : Port n) (hk : k ≤ n) :
    p.readLow k = none ↔ ∃ j : Fin n, j.val < k ∧ p[j] = .undefined := by
  rw [Port.readLow_eq_none_iff p k hk]
  constructor
  · rintro ⟨j, hj, hlevel⟩
    obtain ⟨hjn, hlevel⟩ := List.getElem?_eq_some_iff.mp hlevel
    exact ⟨⟨j, by simpa using hjn⟩, hj, by simpa using hlevel⟩
  · rintro ⟨j, hj, hlevel⟩
    exact ⟨j, hj, List.getElem?_eq_some_iff.mpr ⟨by simp, by simpa using hlevel⟩⟩

/-- Wires at levels that stand for bits are at the levels of those bits. -/
theorem Level.eq_ofBit_of_bit? {l : Level} {b : Bool} (h : l.bit? = some b) : l = Level.ofBit b := by
  cases l with
  | low => obtain rfl := Option.some.inj h; rfl
  | high => obtain rfl := Option.some.inj h; rfl
  | undefined => cases h

/-- Of the two bits, 1 is the one that the high level stands for. -/
theorem Level.ofBit_eq_high_iff (b : Bool) : Level.ofBit b = .high ↔ b = true := by
  cases b with
  | false => simp [Level.ofBit]
  | true => simp [Level.ofBit]

/-- Each wire that is read has the level of its bit in the value read (R26). -/
theorem Port.getElem_of_readLow {n k : Nat} {p : Port n} {v : BitVec k} (h : p.readLow k = some v) {i : Nat}
    (hi : i < k) (hin : i < n) : p[i] = Level.ofBit v[i] := by
  have hlow := Port.readLow_mono p (Nat.succ_le_of_lt hi) h
  simp only [Port.readLow] at hlow
  split at hlow
  · rename_i b u hb _
    have hbit : b = v[i] := by
      have htop := congrArg (·.getLsbD i) (Option.some.inj hlow)
      rw [← BitVec.getLsbD_eq_getElem]
      simpa [BitVec.getElem_cons] using htop
    rw [← hbit]
    exact Level.eq_ofBit_of_bit? (by simpa [hin] using hb)
  · cases hlow

/-- The value read depends only on the wires read (R109). -/
theorem Port.readLow_congr {n : Nat} {p q : Port n} :
    ∀ k, (∀ j : Fin n, j.val < k → p[j] = q[j]) → p.readLow k = q.readLow k
  | 0, _ => rfl
  | k + 1, h => by
    have hlow := Port.readLow_congr k fun j hj => h j (Nat.lt_succ_of_lt hj)
    have hwire : p.toList[k]? = q.toList[k]? := by
      by_cases hk : k < n
      · simpa [hk] using h ⟨k, hk⟩ (Nat.lt_succ_self k)
      · simp [hk]
    simp only [Port.readLow, hlow, hwire]

/-- `op` reads as no value exactly when one of its two wires is at an undefined level (R109). -/
theorem readLow_op_eq_none_iff (op : Port 2) : op.readLow 2 = none ↔ op[0] = .undefined ∨ op[1] = .undefined := by
  rw [Port.readLow_eq_none_iff_getElem op (Nat.le_refl 2)]
  simp [Fin.exists_fin_two]

/-- The block finds no request exactly when a wire that the selected operation reads is at an undefined level (R109). -/
theorem fetch_eq_none_iff (s : State) :
    fetch s = none ↔ s.op[0] = .undefined ∨ s.op[1] = .undefined ∨
      (s.op[0] = .low ∧ ∃ j : Fin 32, s.a[j] = .undefined) ∨
      (s.op[0] = .high ∧ ∃ j : Fin 32, j.val < 16 ∧ s.a[j] = .undefined) := by
  cases hop : s.op.readLow 2 with
  | none =>
    have hfetch : fetch s = none := by simp [fetch, fetchWord, hop]
    have hundefined := (readLow_op_eq_none_iff s.op).mp hop
    tauto
  | some op =>
    have h0 : s.op[0] = Level.ofBit op[0] := Port.getElem_of_readLow hop (by decide) (by decide)
    have hdefined : ¬ (s.op[0] = .undefined ∨ s.op[1] = .undefined) := by simp [← readLow_op_eq_none_iff, hop]
    obtain ⟨-, h1⟩ := not_or.mp hdefined
    cases hdir : op[0] with
    | false =>
      have hlow : s.op[0] = .low := by rw [h0, hdir]; rfl
      have hfetch : fetch s = none ↔ s.a.readLow 32 = none := by simp [fetch, fetchWord, hop, hdir]
      rw [hfetch, Port.readLow_eq_none_iff_getElem s.a (Nat.le_refl 32)]
      simp [hlow, h1]
    | true =>
      have hhigh : s.op[0] = .high := by rw [h0, hdir]; rfl
      have hfetch : fetch s = none ↔ s.a.readLow 16 = none := by simp [fetch, fetchWord, hop, hdir]
      rw [hfetch, Port.readLow_eq_none_iff_getElem s.a (by decide)]
      simp [hhigh, h1]

/-- A step that fetches a request completes (R90). -/
theorem exists_step_of_fetch {s : State} {i : Instr} (hi : fetch s = some i) : ∃ t, step s = .next t := by
  rw [step_of_fetch hi]
  obtain ⟨v, -, ⟨-, hexec⟩ | ⟨-, hexec⟩⟩ := exec_completes i s
  · exact ⟨_, hexec⟩
  · exact ⟨_, hexec⟩

/-- A step is refused exactly when it finds no request (R90, R109). -/
theorem step_eq_refused_iff (s : State) : step s = .refused .undefinedInputLevel ↔ fetch s = none := by
  cases hf : fetch s with
  | none => simp [step_eq, hf]
  | some i =>
    obtain ⟨t, ht⟩ := exists_step_of_fetch hf
    simp [ht]

/-- Where `op[0]` is high, the request is fetched without `a[31:16]` (R40, R109). -/
theorem fetch_driveInputs_upper {s : State} {a : Port 32} (hop : s.op[0] = .high)
    (ha : ∀ j : Fin 32, j.val < 16 → a[j] = s.a[j]) : fetch (s.driveInputs s.op a) = fetch s := by
  cases hread : s.op.readLow 2 with
  | none => simp [fetch, fetchWord, hread]
  | some op =>
    have hdir : op[0] = true := by
      rw [← Level.ofBit_eq_high_iff, ← hop]
      exact (Port.getElem_of_readLow hread (by decide) (by decide)).symm
    simp [fetch, fetchWord, hread, hdir, Port.readLow_congr 16 ha]

/-- A decoded request does not look at the inputs: other levels on them are still there after it, and nothing else
differs (R21). -/
theorem exec_driveInputs {i : Instr} {s t : State} (h : exec i s = .next t) (op : Port 2) (a : Port 32) :
    exec i (s.driveInputs op a) = .next { t with op := op, a := a } := by
  by_cases hr : Reliable i
  · rw [exec_of_reliable hr] at h ⊢
    obtain rfl := Host.Outcome.next.inj h
    rfl
  · cases i with
    | toHalf sgl => exact absurd trivial hr
    | toSingle x => exact absurd trivial hr
    | toHalfFast sgl =>
      rw [exec_toHalfFast_outOfContract (Bool.eq_false_iff.mpr hr)] at h ⊢
      obtain rfl := Host.Outcome.next.inj h
      rfl
    | toSingleFast x =>
      rw [exec_toSingleFast_outOfContract (Bool.eq_false_iff.mpr hr)] at h ⊢
      obtain rfl := Host.Outcome.next.inj h
      rfl

/-- Settles O6: a step is refused exactly when the fetch finds no request, and with `op[0]` high neither the fetch nor the
request looks at `a[31:16]`. -/
theorem undefinedLevelsAreRefused : Obligations.UndefinedLevelsAreRefused := by
  refine ⟨fun s => ⟨(step_eq_refused_iff s).trans (fetch_eq_none_iff s), fun hs => ?completes⟩,
    fun s t a hop ha hstep => ?upper⟩
  case completes =>
    rw [ne_eq, step_eq_refused_iff] at hs
    obtain ⟨i, hi⟩ := Option.ne_none_iff_exists'.mp hs
    exact exists_step_of_fetch hi
  case upper =>
    obtain ⟨i, hi⟩ := exists_fetch_of_step hstep
    have hexec : exec i s = .next t := (step_of_fetch hi).symm.trans hstep
    obtain ⟨hports, -⟩ := everyStepKeepsInputsAndParameter s t hstep
    rw [step_of_fetch ((fetch_driveInputs_upper hop ha).trans hi), exec_driveInputs hexec, ← hports]

end Sys2Proof.Machine
end

section
/-!
## Settling and history

What can be sampled is an allowed result of the request on the ports (R105), and what was presented before leaves no trace
in a reliable request's result (R106).
-/
namespace Sys2Proof.Machine

/-- After a step a sample gives a result allowed for the request that was on the ports (R103, R105). -/
theorem sampleY_of_step {s t : State} (h : step s = .next t) :
    ∃ i v, fetch s = some i ∧ sampleY t = .next v ∧ Allowed s.config i v := by
  obtain ⟨i, v, hi, hv, ⟨-, rfl⟩ | ⟨-, rfl⟩⟩ := step_cases h
  · exact ⟨i, v, hi, sampleY_driveY _ v, hv⟩
  · exact ⟨i, v, hi, sampleY_driveY _ v, hv⟩

/-- Driving the inputs takes the value of `y` away, so that none can be stale (R105). -/
theorem noStaleOutput_driveInputs (s : State) (op : Port 2) (a : Port 32) : NoStaleOutput (s.driveInputs op a) :=
  fun hy => absurd (State.driveInputs_y s op a) hy

/-- Settles O34: a step settles an allowed result whatever stood on `y` (O33), and driving the inputs leaves no value. -/
theorem sampledOutputIsNeverStale : Obligations.SampledOutputIsNeverStale := by
  refine fun s _ => ⟨fun t hstep => ⟨fun _ => everyStepSettlesTheOutput s t hstep, ?sample⟩,
    fun op a => ⟨noStaleOutput_driveInputs s op a, (sampleY_eq_refused_iff _).mpr rfl, fun t => sampleY_of_step⟩⟩
  case sample =>
    obtain ⟨-, v, -, hv, -⟩ := sampleY_of_step hstep
    exact ⟨v, hv⟩

/-- Any list of requests completes and leaves the parameter (R90, R19), by induction on the list. -/
theorem presentAll_completes (ws : List RequestWord) (s : State) :
    ∃ t, presentAll ws s = .next t ∧ t.config = s.config := by
  induction ws generalizing s with
  | nil => exact ⟨s, rfl, rfl⟩
  | cons w ws ih =>
    obtain ⟨u, -, hstep, -, hu⟩ := step_present_samples s w
    obtain ⟨t, hrun, ht⟩ := ih u
    exact ⟨t, by rw [presentAll, hstep]; exact hrun, ht.trans hu⟩

/-- A step on a presented reliable request settles its result and changes nothing else (R107). -/
theorem step_present_of_reliable (s : State) {w : RequestWord} (hr : Reliable (decode w)) :
    step (s.present w) = .next ((s.present w).driveY (reliableResult s.config (decode w))) :=
  step_of_fetch_reliable (fetch_present s w) hr

/-- Settles O39: the list completes and leaves the parameter, on which alone a reliable request's result depends. -/
theorem earlierRequestsHaveNoEffect : Obligations.EarlierRequestsHaveNoEffect := by
  intro ws w s
  obtain ⟨t, hrun, hconfig⟩ := presentAll_completes ws s
  refine ⟨⟨t, hrun⟩, fun hr => ?_⟩
  have hafter := step_present_of_reliable t hr
  rw [hconfig] at hafter
  exact ⟨t, _, _, _, hrun, hafter, step_present_of_reliable s hr, rfl, rfl⟩

end Sys2Proof.Machine
end

section
/-!
## The words of the program listings

The words that the spec's programs list are encodings, so they decode to what they encode (R37, R39, R51).
-/
namespace Sys2Proof.Machine

/-- Settles O3: the words of P1 and P4 are encodings of their requests, and the word of S18 selects ToSingle with `0xDEAD`
on the ignored `a[31:16]`. -/
theorem programListingWordsDecode : Obligations.ProgramListingWordsDecode := by
  have decodes (w : RequestWord) (i : Instr) (hw : encode i = w) : decode w = i := by rw [← hw, decode_encode]
  exact ⟨decodes _ _ rfl, decodes _ _ rfl, decodes _ _ rfl, decodes _ _ rfl, decode_toSingle 0xDEAD#16 0x3C00#16⟩

end Sys2Proof.Machine
end
